-- ==== Sys2Proof/Word.lean ====
section
/-! DEFINITION. The two data widths of the hardware: 32-bit words and 8-bit bytes (spec/00_scope.md R5, R8). -/

namespace Sys2Proof

/-- A word: an unsigned number in [0, 2^32) (R8); `+` on it is the spec's `+32`. -/
abbrev Word := BitVec 32

/-- A byte: an unsigned number in [0, 256) (R8). -/
abbrev Byte := BitVec 8

end Sys2Proof
end

