-- ==== Sys2Proof/Syntax.lean ====
section
/-! DEFINITION. The instructions: one constructor per row of spec/opcode_table.json (two commands and eleven micro-op words). -/

namespace Sys2Proof

/-- An instruction of either level (spec/30_encoding.md R80, R81). A command's operands are whole descriptor words taken as
unsigned numbers (R85); `Instr.wf` bounds them. Each of the eight legal QR words of R93 is a row of the table and so a
constructor here: QR with another tuple is no instruction (R94). -/
inductive Instr where
  /-- INIT keyptr, ncptr (R83; spec/41_stream_engine.md R141). -/
  | init (keyptr ncptr : Nat)
  /-- PROCESS src, dst, len (R84; spec/41_stream_engine.md R150). -/
  | process (src dst len : Nat)
  /-- LDX (R91; spec/40_block_core.md R112). -/
  | ldx
  /-- QR 0, 4, 8, 12 (R93 slot 0; spec/40_block_core.md R114). -/
  | qrCol0
  /-- QR 1, 5, 9, 13 (R93 slot 1). -/
  | qrCol1
  /-- QR 2, 6, 10, 14 (R93 slot 2). -/
  | qrCol2
  /-- QR 3, 7, 11, 15 (R93 slot 3). -/
  | qrCol3
  /-- QR 0, 5, 10, 15 (R93 slot 4). -/
  | qrDiag0
  /-- QR 1, 6, 11, 12 (R93 slot 5). -/
  | qrDiag1
  /-- QR 2, 7, 8, 13 (R93 slot 6). -/
  | qrDiag2
  /-- QR 3, 4, 9, 14 (R93 slot 7). -/
  | qrDiag3
  /-- FFW (R91; spec/40_block_core.md R115). -/
  | ffw
  /-- SER (R91; spec/40_block_core.md R116). -/
  | ser
deriving DecidableEq, Repr

end Sys2Proof
end

