-- ==== Sys2Proof/WellFormed.lean ====
section
/-! DEFINITION. Which instructions are well-formed: every operand of a command fits its 32-bit descriptor word. -/

namespace Sys2Proof

/-- The operand fits one descriptor word (spec/30_encoding.md R82, R85). -/
def fitsWord (n : Nat) : Bool := decide (n < 2 ^ 32)

/-- The instruction can be written as a descriptor or as a micro-op word. A micro-op has no operand left to check: its
index tuple is part of its constructor. -/
def Instr.wf : Instr → Bool
  | .init keyptr ncptr => fitsWord keyptr && fitsWord ncptr
  | .process src dst len => fitsWord src && fitsWord dst && fitsWord len
  | .ldx => true
  | .qrCol0 => true
  | .qrCol1 => true
  | .qrCol2 => true
  | .qrCol3 => true
  | .qrDiag0 => true
  | .qrDiag1 => true
  | .qrDiag2 => true
  | .qrDiag3 => true
  | .ffw => true
  | .ser => true

end Sys2Proof
end

