-- ==== Sys2Proof/Decode.lean ====
section
/-! DEFINITION. The decoder of both instruction levels, total on every word, and after it the encoder
(spec/30_encoding.md R82 to R94). -/

namespace Sys2Proof

/-- Why a word is no instruction. -/
inductive Reject where
  /-- A command whose OP is neither 0x01 nor 0x02 (R86, R87). -/
  | reservedOp
  /-- A command whose RSV0 is not 0 (R87). -/
  | reservedBits
  /-- INIT whose L is not 0 (R87). -/
  | initLength
  /-- A micro-op word with UOP 0x0 or 0x5 to 0xF (R94). -/
  | reservedUop
  /-- LDX, FFW or SER with an index field that is not 0 (R94). -/
  | indexFields
  /-- QR with a tuple that is not one of the eight of R93 (R94). -/
  | reservedTuple
deriving DecidableEq, Repr

/-- The decoder's answer. -/
inductive Decoded where
  | instr (i : Instr)
  | rejected (r : Reject)
deriving DecidableEq, Repr

/-- A word of either level: a 128-bit descriptor (R82) or a 20-bit micro-op word (R90). -/
inductive Code where
  | command (d : BitVec 128)
  | micro (w : BitVec 20)
deriving DecidableEq, Repr

/-- OP, bits [7:0] of a descriptor (R82). -/
def cmdOp (d : BitVec 128) : BitVec 8 := d.extractLsb' 0 8

/-- RSV0, bits [31:8] of a descriptor (R82). -/
def cmdRsv0 (d : BitVec 128) : BitVec 24 := d.extractLsb' 8 24

/-- Operand A, bits [63:32] of a descriptor (R82), as an unsigned number (R85). -/
def cmdA (d : BitVec 128) : Nat := (d.extractLsb' 32 32).toNat

/-- Operand B, bits [95:64] of a descriptor (R82), as an unsigned number (R85). -/
def cmdB (d : BitVec 128) : Nat := (d.extractLsb' 64 32).toNat

/-- L, bits [127:96] of a descriptor (R82), as an unsigned number (R85). -/
def cmdL (d : BitVec 128) : Nat := (d.extractLsb' 96 32).toNat

/-- Decode a descriptor: the test order of R88. -/
def decodeCommand (d : BitVec 128) : Decoded :=
  if cmdRsv0 d ≠ 0 then .rejected .reservedBits
  else if cmdOp d = 0x01 then
    if cmdL d = 0 then .instr (.init (cmdA d) (cmdB d)) else .rejected .initLength
  else if cmdOp d = 0x02 then .instr (.process (cmdA d) (cmdB d) (cmdL d))
  else .rejected .reservedOp

/-- UOP, bits [19:16] of a micro-op word (R90). -/
def uopCode (w : BitVec 20) : BitVec 4 := w.extractLsb' 16 4

/-- The index fields a, b, c, d, bits [15:0] of a micro-op word (R90). -/
def uopIndices (w : BitVec 20) : BitVec 16 := w.extractLsb' 0 16

/-- The eight index tuples of R93 as the fields a, b, c, d of R90 hold them, each with its instruction. -/
def qrTuples : List (BitVec 16 × Instr) :=
  [(0x048C, .qrCol0), (0x159D, .qrCol1), (0x26AE, .qrCol2), (0x37BF, .qrCol3),
   (0x05AF, .qrDiag0), (0x16BC, .qrDiag1), (0x278D, .qrDiag2), (0x349E, .qrDiag3)]

/-- A micro-op whose index fields must be 0 (R90, R94). -/
def plainMicro (w : BitVec 20) (i : Instr) : Decoded :=
  if uopIndices w = 0 then .instr i else .rejected .indexFields

/-- Decode a micro-op word (R91, R94). -/
def decodeMicro (w : BitVec 20) : Decoded :=
  if uopCode w = 0x1 then plainMicro w .ldx
  else if uopCode w = 0x2 then
    match qrTuples.lookup (uopIndices w) with
    | some i => .instr i
    | none => .rejected .reservedTuple
  else if uopCode w = 0x3 then plainMicro w .ffw
  else if uopCode w = 0x4 then plainMicro w .ser
  else .rejected .reservedUop

/-- Decode a word of either level. -/
def decode : Code → Decoded
  | .command d => decodeCommand d
  | .micro w => decodeMicro w

/-- The instruction of an answer, none where the decoder refuses. -/
def Decoded.toOption : Decoded → Option Instr
  | .instr i => some i
  | .rejected _ => none

/-- A descriptor from its four words: D = W3 * 2^96 + W2 * 2^64 + W1 * 2^32 + W0 (R82). -/
def descriptor (w0 w1 w2 w3 : Word) : BitVec 128 := w3 ++ w2 ++ w1 ++ w0

/-- A QR word: UOP 0x2 and the indices a, b, c, d (R90, R96). -/
def qrWord (a b c d : BitVec 4) : BitVec 20 := (0x2 : BitVec 4) ++ a ++ b ++ c ++ d

/-- Encode a well-formed instruction (R83, R84, R91, R93, R96). -/
def encode : Instr → Code
  | .init keyptr ncptr => .command (descriptor 0x00000001 (BitVec.ofNat 32 keyptr) (BitVec.ofNat 32 ncptr) 0)
  | .process src dst len =>
    .command (descriptor 0x00000002 (BitVec.ofNat 32 src) (BitVec.ofNat 32 dst) (BitVec.ofNat 32 len))
  | .ldx => .micro 0x10000
  | .qrCol0 => .micro (qrWord 0 4 8 12)
  | .qrCol1 => .micro (qrWord 1 5 9 13)
  | .qrCol2 => .micro (qrWord 2 6 10 14)
  | .qrCol3 => .micro (qrWord 3 7 11 15)
  | .qrDiag0 => .micro (qrWord 0 5 10 15)
  | .qrDiag1 => .micro (qrWord 1 6 11 12)
  | .qrDiag2 => .micro (qrWord 2 7 8 13)
  | .qrDiag3 => .micro (qrWord 3 4 9 14)
  | .ffw => .micro 0x30000
  | .ser => .micro 0x40000

/-- The word of either level whose bits are `w`, numbered as the opcode table numbers them. A micro-op word is 20 bits
(three whole bytes), a descriptor 128; a row of more than three bytes is a command's, whose bits above `nbits` are 0.
None where the bits do not fit the word. -/
def tableCode (nbits w : Nat) : Option Code :=
  if nbits ≤ 24 then
    if w < 2 ^ 20 then some (.micro (BitVec.ofNat 20 w)) else none
  else
    if w < 2 ^ 128 then some (.command (BitVec.ofNat 128 w)) else none

/-- The instruction the decoder reads from an instruction word whose bits are `w`. -/
def decodeTableWord (nbits w : Nat) : Option Instr :=
  match tableCode nbits w with
  | some c => (decode c).toOption
  | none => none

end Sys2Proof
end

