-- ==== Sys2Proof/Config.lean ====
section
/-! DEFINITION. What the spec fixes for every instance (spec/00_scope.md R6) and the free values: what it leaves open. -/

namespace Sys2Proof

/-- One past the highest data address: AW = 32 (R6, spec/20_memory.md R50). -/
def Config.addressTop : Nat := 2 ^ 32

/-- One past the highest value of the 64-bit effective counter (R6; spec/60_exceptions.md R185). -/
def Config.counterTop : Nat := 2 ^ 64

/-- What a byte of data memory reads as that nobody has written.
DESIGN CHOICE (unsafe, log 5): the spec gives memory no default value. -/
def Config.unlistedByte : Byte := 0

/-- The free words of a run, numbered by the counter `State.draws`: no body, so no proof can see one (log 2, 3, 4). -/
opaque Config.freeWord : Nat → Word

/-- The free bytes of a run, numbered by the counter `State.draws` (log 2, 3). -/
opaque Config.freeByte : Nat → Byte

end Sys2Proof
end

