-- ==== Sys2Proof/Machine/State.lean ====
section
/-! DEFINITION. The machine's state as plain data, the reasons a step can stop, and the state after reset
(spec/10_state.md R20 to R42, spec/70_reset_and_hazards.md R210, R220). -/

namespace Sys2Proof.Machine

/-- PHASE (R27); the 2-bit value 3 never occurs. -/
inductive Phase where
  | uninit
  | fresh
  | streaming
deriving DecidableEq, Repr

/-- CAUSE (R28, spec/60_exceptions.md R181); the 4-bit values 6 to 15 never occur. -/
inductive Cause where
  | none
  | illegalCmd
  | notInit
  | addrRange
  | overlap
  | ctrLimit
deriving DecidableEq, Repr

/-- The Block Core's registers (R29, R30): all a micro-op can reach. Transient: outside an invocation their contents are
unspecified. -/
structure BlockCore where
  /-- IN[0..15], the input latch. -/
  inp : Vector Word 16
  /-- X[0..15], the working array. -/
  x : Vector Word 16
  /-- OUT[0..63], the output block. -/
  out : Vector Byte 64
  /-- upc, the micro-sequencer index. -/
  upc : BitVec 7
deriving DecidableEq, Repr

/-- Width of a host access to the status port; only `word` is legal (R32). -/
inductive AccessWidth where
  | byte
  | half
  | word
deriving DecidableEq, Repr

/-- One host interaction, made between commands (spec/70_reset_and_hazards.md R220). -/
inductive HostAct where
  /-- Apply the reset event (R210). -/
  | reset
  /-- Issue one 128-bit descriptor (spec/30_encoding.md R80). -/
  | issue (d : BitVec 128)
  /-- Read the status port at a byte offset (R32). -/
  | statusRead (width : AccessWidth) (offset : Nat)
  /-- Write the status port: reserved, it has no writable register (R32). -/
  | statusWrite (width : AccessWidth) (offset : Nat) (v : Word)
  /-- Read a byte of data memory (R220). -/
  | memRead (a : Word)
  /-- Write a byte of data memory (R220). -/
  | memWrite (a : Word) (v : Byte)
deriving DecidableEq, Repr

/-- What the host's last read returned. -/
inductive HostResp where
  | none
  | word (v : Word)
  | byte (v : Byte)
deriving DecidableEq, Repr

/-- Data memory (spec/20_memory.md R50) as its listed bytes; `Memory.wf` is the canonical form. -/
abbrev Memory := List Host.Cell

/-- Why the machine stops with a fault. The five fault causes of the spec are no such stop: taking one is a next state
(spec/60_exceptions.md R186, R198). -/
inductive Fault where
  /-- Raised by the sequencer's fetch when `upc` is past ROM[82]: the value 83 is never used as an index
  (spec/10_state.md R30). Safe: the spec gives no ROM entry there, and no reachable state has the sequencer running
  with such an index. -/
  | upcOutsideRom
deriving DecidableEq, Repr

/-- Why the model gives no meaning. -/
inductive Refusal where
  /-- Answered by `exec` for an instruction that has no meaning yet. Safe. -/
  | notModelled (mnemonic : String)
  /-- Answered by a host access to the status port other than the five aligned 32-bit reads (spec/10_state.md R32,
  spec/93_implementation_defined.md U6: refuse). Safe. -/
  | statusAccess
  /-- Answered by the sequencer if a fetched micro-op word were none of the eleven legal ones (spec/30_encoding.md R94,
  spec/93_implementation_defined.md U5: refuse). Safe: the ROM holds no such word. -/
  | reservedMicroOp
deriving DecidableEq, Repr

/-- The state of one engine instance (R20), the data memory beside it (spec/20_memory.md R50), the host interactions
still to come, and the model's own bookkeeping. -/
structure State where
  /-- K[0..7], the key (R21). -/
  k : Vector Word 8
  /-- CN[0..3], counter and nonce (R22). -/
  cn : Vector Word 4
  /-- BUF[0..63], the scratch keystream buffer (R24). -/
  buf : Vector Byte 64
  /-- REM, the count of unused bytes of BUF (R25). -/
  rem : BitVec 6
  /-- PHASE (R27). -/
  phase : Phase
  /-- FAULT (R28). -/
  fault : Bool
  /-- CAUSE (R28). -/
  cause : Cause
  /-- IN, X, OUT and upc (R29, R30). -/
  bc : BlockCore
  /-- Data memory (spec/20_memory.md R50). -/
  mem : Memory
  /-- The host interactions still to come, next first (spec/70_reset_and_hazards.md R221; log 6). -/
  host : List HostAct
  /-- What the host's last read returned (log 6). -/
  resp : HostResp
  /-- The Block Core sequencer is inside an invocation: the next step executes ROM[upc] (log 7). -/
  seqRunning : Bool
  /-- How many free values have been drawn: the model's own field (log 2). -/
  draws : Nat
deriving DecidableEq, Repr

/-- The Block Core after power-on; the spec leaves it unspecified (R40), the zeros are a DESIGN CHOICE (log 1). -/
def BlockCore.reset : BlockCore where
  inp := Vector.replicate 16 0
  x := Vector.replicate 16 0
  out := Vector.replicate 64 0
  upc := 0

/-- The machine right after reset (R40). K, CN, BUF and the Block Core's registers are unspecified there: their zeros are
a DESIGN CHOICE (unsafe, log 1). Memory has nothing listed and no host interaction is waiting. -/
def State.reset : State where
  k := Vector.replicate 8 0
  cn := Vector.replicate 4 0
  buf := Vector.replicate 64 0
  rem := 0
  phase := .uninit
  fault := false
  cause := .none
  bc := BlockCore.reset
  mem := []
  host := []
  resp := .none
  seqRunning := false
  draws := 0

end Sys2Proof.Machine
end

