-- ==== Sys2Proof/Machine/Ops.lean ====
section
/-! DEFINITION. The named operations over words, memory and registers; raising a fault, and the reset event that is the
only way out of one (spec/00_scope.md R8 to R10, spec/20_memory.md R53, spec/60_exceptions.md R186 to R190). -/

namespace Sys2Proof.Machine

/-- LE32: the word of four bytes, lowest address first (R9). -/
def le32 (b0 b1 b2 b3 : Byte) : Word :=
  BitVec.ofNat 32 (b0.toNat + 256 * b1.toNat + 65536 * b2.toNat + 16777216 * b3.toNat)

/-- BYTE(w, j) = floor(w / 256^j) mod 256 (R9). -/
def byteOf (w : Word) (j : Nat) : Byte := BitVec.ofNat 8 (w.toNat / 256 ^ j)

/-- rotl32: the circular left shift of a word (R8); only r = 16, 12, 8 and 7 are used. -/
def rotl32 (v : Word) (r : Nat) : Word := v.rotateLeft r

/-- MemRead(addr, 1) (spec/20_memory.md R53). -/
def Memory.read : Memory → Nat → Byte
  | [], _ => Config.unlistedByte
  | (b, v) :: rest, a => if b = a then v else Memory.read rest a

/-- The memory with one more entry in front, left out where the byte is what an unlisted address reads as. -/
def Memory.put (a : Nat) (v : Byte) (m : Memory) : Memory :=
  if v = Config.unlistedByte then m else (a, v) :: m

/-- MemWrite(addr, 1, v) (spec/20_memory.md R53), keeping the canonical form. -/
def Memory.write : Memory → Nat → Byte → Memory
  | [], a, v => Memory.put a v []
  | (b, w) :: rest, a, v =>
    if a < b then Memory.put a v ((b, w) :: rest)
    else if a = b then Memory.put a v rest
    else (b, w) :: Memory.write rest a v

/-- Canonical from address `lo` on: strictly rising addresses inside the space, no entry equal to the unlisted byte. -/
def Memory.wfFrom : Nat → Memory → Bool
  | _, [] => true
  | lo, (a, v) :: rest =>
    decide (lo ≤ a) && decide (a < Config.addressTop) && decide (v ≠ Config.unlistedByte) && Memory.wfFrom (a + 1) rest

/-- The canonical form of memory. -/
def Memory.wf (m : Memory) : Bool := Memory.wfFrom 0 m

/-- The 64-bit effective counter ctr64 = CN[1]:CN[0] (spec/10_state.md R22). -/
def ctr64 (cn : Vector Word 4) : Nat := cn[1].toNat * 2 ^ 32 + cn[0].toNat

/-- The counter words after one increment, with the carry into CN[1] (spec/41_stream_engine.md R146). -/
def incrCn (cn : Vector Word 4) : Vector Word 4 :=
  if cn[0] + 1 = 0 then (cn.set 0 (cn[0] + 1)).set 1 (cn[1] + 1) else cn.set 0 (cn[0] + 1)

/-- INCR (spec/41_stream_engine.md R146). -/
def incr (s : State) : State := { s with cn := incrCn s.cn }

/-- raise Fault(cause): FAULT and CAUSE are written and nothing else (spec/60_exceptions.md R186). -/
def raiseFault (c : Cause) (s : State) : State := { s with fault := true, cause := c }

/-- A descriptor while FAULT = 1 is accepted and dropped (spec/60_exceptions.md R188); otherwise the command goes on. -/
def dropIfFaulted (s : State) (go : Host.Outcome State Fault Refusal) : Host.Outcome State Fault Refusal :=
  if s.fault then .next s else go

/-- A descriptor that is no legal command (spec/30_encoding.md R87). -/
def illegalCommand (s : State) : Host.Outcome State Fault Refusal :=
  dropIfFaulted s (.next (raiseFault .illegalCmd s))

/-- Block Core registers that hold nothing the spec fixes (spec/10_state.md R29): free values numbered from `n`. -/
def freeBlockCore (n : Nat) : BlockCore where
  inp := Vector.ofFn fun i => Config.freeWord (n + i.val)
  x := Vector.ofFn fun i => Config.freeWord (n + 16 + i.val)
  out := Vector.ofFn fun j => Config.freeByte (n + j.val)
  upc := (Config.freeWord (n + 32)).setWidth 7

/-- The Block Core's registers after their invocations are over: unspecified (spec/10_state.md R29; log 3). -/
def releaseBlockCore (s : State) : State := { s with bc := freeBlockCore s.draws, draws := s.draws + 64 }

/-- The reset event (spec/70_reset_and_hazards.md R210): the only exit from FAULT = 1 (spec/60_exceptions.md R190). The
registers it leaves unspecified take free values (log 2); memory is not touched. -/
def resetEvent (s : State) : State :=
  { s with
    k := Vector.ofFn fun i => Config.freeWord (s.draws + 64 + i.val)
    cn := Vector.ofFn fun i => Config.freeWord (s.draws + 72 + i.val)
    buf := Vector.ofFn fun j => Config.freeByte (s.draws + 64 + j.val)
    rem := 0
    phase := .uninit
    fault := false
    cause := .none
    bc := freeBlockCore s.draws
    draws := s.draws + 128 }

end Sys2Proof.Machine
end

