-- ==== Sys2Proof/Machine/Operands.lean ====
section
/-! DEFINITION. The one addressing mode, base plus byte index on naturals (spec/41_stream_engine.md R158), and what is
read and written through it. -/

namespace Sys2Proof.Machine

/-- A buffer of `size` bytes from `base` would pass the top of memory (spec/60_exceptions.md R183). -/
def passesTop (base size : Nat) : Bool := decide (base + size > Config.addressTop)

/-- The distance |a - b| of two addresses. -/
def distance (a b : Nat) : Nat := (a - b) + (b - a)

/-- Source and destination share an address without being the same range (spec/60_exceptions.md R184). -/
def partialOverlap (src dst len : Nat) : Bool := decide (src ≠ dst) && decide (distance src dst < len)

/-- The word of the four bytes at `a` to `a + 3` (spec/20_memory.md R56). -/
def loadWord (m : Memory) (a : Nat) : Word := le32 (m.read a) (m.read (a + 1)) (m.read (a + 2)) (m.read (a + 3))

/-- `n` words from `base` on (spec/20_memory.md R56). -/
def loadWords (n : Nat) (m : Memory) (base : Nat) : Vector Word n := Vector.ofFn fun i => loadWord m (base + 4 * i.val)

/-- One read and one write per keystream byte, index ascending: the byte at the source index xor the keystream byte goes
to the same index of the destination (spec/20_memory.md R57, R63). -/
def xorRun (src dst : Nat) : List Byte → Memory → Memory
  | [], m => m
  | ks :: rest, m => xorRun (src + 1) (dst + 1) rest (m.write dst (m.read src ^^^ ks))

end Sys2Proof.Machine
end

