-- ==== Sys2Proof/Machine/Flags.lean ====
section
/-! DEFINITION. The status flag FAULT with CAUSE, the conditions PROCESS computes without storing them, and the STATUS
word that shows the fields (spec/10_state.md R28, R33; spec/60_exceptions.md R181 to R187). -/

namespace Sys2Proof.Machine

/-- The code of PHASE (spec/10_state.md R27). -/
def Phase.code : Phase → BitVec 2
  | .uninit => 0
  | .fresh => 1
  | .streaming => 2

/-- The code of CAUSE (spec/60_exceptions.md R181). -/
def Cause.code : Cause → BitVec 4
  | .none => 0
  | .illegalCmd => 1
  | .notInit => 2
  | .addrRange => 3
  | .overlap => 4
  | .ctrLimit => 5

/-- STATUS: PHASE [1:0], FAULT [2], CAUSE [7:4], REM [13:8], the other bits 0 (spec/10_state.md R33). -/
def statusWord (s : State) : Word :=
  (0 : BitVec 18) ++ s.rem ++ s.cause.code ++ (0 : BitVec 1) ++ BitVec.ofBool s.fault ++ s.phase.code

/-- `drained`: the drain step of a PROCESS takes REM from positive to 0 (spec/10_state.md R28; spec/41_stream_engine.md
R147, R151). -/
def drained (rem len : Nat) : Bool := decide (0 < rem) && decide (rem ≤ len)

/-- INC(REM, LEN): how many INCRs a PROCESS performs (spec/41_stream_engine.md R147). -/
def incCount (rem len : Nat) : Nat := (if drained rem len then 1 else 0) + (len - min len rem) / 64

/-- The first condition of INIT that holds, in the order of spec/60_exceptions.md R187. -/
def initFault (keyptr ncptr : Nat) : Option Cause :=
  if passesTop keyptr 32 || passesTop ncptr 16 then some .addrRange else none

/-- The first condition of PROCESS that holds, in the order of spec/60_exceptions.md R187 (spec/41_stream_engine.md
R150). -/
def processFault (src dst len : Nat) (s : State) : Option Cause :=
  if s.phase = .uninit then some .notInit
  else if decide (0 < len) && (passesTop src len || passesTop dst len) then some .addrRange
  else if decide (0 < len) && partialOverlap src dst len then some .overlap
  else if ctr64 s.cn + incCount s.rem.toNat len ≥ Config.counterTop then some .ctrLimit
  else none

end Sys2Proof.Machine
end

