-- ==== Sys2Proof/Machine/BlockCore.lean ====
section
/-! DEFINITION. The Block Core: the quarter-round, the four kinds of micro-op and their meanings, the ROM and the
sequencer, and `permute` as a function (spec/40_block_core.md). -/

namespace Sys2Proof.Machine

/-- The ARX step: `X[x] <- X[x] +32 X[y]`, then `X[z] <- rotl32(X[z] xor X[x], r)` with the X[x] just written (R111). -/
def arx (v : Vector Word 16) (x y z : Fin 16) (r : Nat) : Vector Word 16 :=
  let v := v.set x (v[x] + v[y])
  v.set z (rotl32 (v[z] ^^^ v[x]) r)

/-- The quarter-round: four ARX steps in order (R113). -/
def quarterRound (a b c d : Fin 16) (v : Vector Word 16) : Vector Word 16 :=
  arx (arx (arx (arx v a b d 16) c d b 12) a b d 8) c d b 7

/-- The feed-forward sum (R115). -/
def addWords (x inp : Vector Word 16) : Vector Word 16 := Vector.ofFn fun i => x[i] + inp[i]

/-- The 64 little-endian bytes of sixteen words (R116; spec/20_memory.md R55). -/
@[irreducible] def serialise (x : Vector Word 16) : Vector Byte 64 :=
  Vector.ofFn fun j => byteOf (x[j.val / 4]'(by omega)) (j.val % 4)

/-- LDX on the Block Core's registers (R112). -/
def BlockCore.ldx (b : BlockCore) : BlockCore := { b with x := b.inp }

/-- QR a, b, c, d on the Block Core's registers (R114). -/
def BlockCore.qr (a b c d : Fin 16) (r : BlockCore) : BlockCore := { r with x := quarterRound a b c d r.x }

/-- FFW on the Block Core's registers (R115). -/
def BlockCore.ffw (b : BlockCore) : BlockCore := { b with x := addWords b.x b.inp }

/-- SER on the Block Core's registers (R116). -/
def BlockCore.ser (b : BlockCore) : BlockCore := { b with out := serialise b.x }

/-- A micro-op's next state: it reaches the Block Core's registers only (R110). -/
def microNext (f : BlockCore → BlockCore) (s : State) : Host.Outcome State Fault Refusal := .next { s with bc := f s.bc }

/-- LDX (R112). -/
def execLdx (s : State) : Host.Outcome State Fault Refusal := microNext BlockCore.ldx s

/-- QR 0, 4, 8, 12 (R114; spec/30_encoding.md R93 slot 0). -/
def execQrCol0 (s : State) : Host.Outcome State Fault Refusal := microNext (BlockCore.qr 0 4 8 12) s

/-- QR 1, 5, 9, 13 (R114; spec/30_encoding.md R93 slot 1). -/
def execQrCol1 (s : State) : Host.Outcome State Fault Refusal := microNext (BlockCore.qr 1 5 9 13) s

/-- QR 2, 6, 10, 14 (R114; spec/30_encoding.md R93 slot 2). -/
def execQrCol2 (s : State) : Host.Outcome State Fault Refusal := microNext (BlockCore.qr 2 6 10 14) s

/-- QR 3, 7, 11, 15 (R114; spec/30_encoding.md R93 slot 3). -/
def execQrCol3 (s : State) : Host.Outcome State Fault Refusal := microNext (BlockCore.qr 3 7 11 15) s

/-- QR 0, 5, 10, 15 (R114; spec/30_encoding.md R93 slot 4). -/
def execQrDiag0 (s : State) : Host.Outcome State Fault Refusal := microNext (BlockCore.qr 0 5 10 15) s

/-- QR 1, 6, 11, 12 (R114; spec/30_encoding.md R93 slot 5). -/
def execQrDiag1 (s : State) : Host.Outcome State Fault Refusal := microNext (BlockCore.qr 1 6 11 12) s

/-- QR 2, 7, 8, 13 (R114; spec/30_encoding.md R93 slot 6). -/
def execQrDiag2 (s : State) : Host.Outcome State Fault Refusal := microNext (BlockCore.qr 2 7 8 13) s

/-- QR 3, 4, 9, 14 (R114; spec/30_encoding.md R93 slot 7). -/
def execQrDiag3 (s : State) : Host.Outcome State Fault Refusal := microNext (BlockCore.qr 3 4 9 14) s

/-- FFW (R115). -/
def execFfw (s : State) : Host.Outcome State Fault Refusal := microNext BlockCore.ffw s

/-- SER (R116). -/
def execSer (s : State) : Host.Outcome State Fault Refusal := microNext BlockCore.ser s

/-- The eight QR words of one iteration, slot 0 first (spec/30_encoding.md R93). -/
def iterationWords : List (BitVec 20) :=
  [0x2048C, 0x2159D, 0x226AE, 0x237BF, 0x205AF, 0x216BC, 0x2278D, 0x2349E]

/-- The micro-program ROM: LDX, ten iterations of eight QR words, FFW, SER (spec/30_encoding.md R92). -/
def rom : List (BitVec 20) := 0x10000 :: (List.replicate 10 iterationWords).flatten ++ [0x30000, 0x40000]

/-- What an instruction word of the ROM does to the Block Core's registers; a command is no micro-op and does nothing
here (spec/30_encoding.md R81). -/
def microEffect : Instr → BlockCore → BlockCore
  | .init _ _ => id
  | .process _ _ _ => id
  | .ldx => BlockCore.ldx
  | .qrCol0 => BlockCore.qr 0 4 8 12
  | .qrCol1 => BlockCore.qr 1 5 9 13
  | .qrCol2 => BlockCore.qr 2 6 10 14
  | .qrCol3 => BlockCore.qr 3 7 11 15
  | .qrDiag0 => BlockCore.qr 0 5 10 15
  | .qrDiag1 => BlockCore.qr 1 6 11 12
  | .qrDiag2 => BlockCore.qr 2 7 8 13
  | .qrDiag3 => BlockCore.qr 3 4 9 14
  | .ffw => BlockCore.ffw
  | .ser => BlockCore.ser

/-- `upc <- upc + 1`, the only way a micro-op's execution moves upc (R118). -/
def BlockCore.advance (b : BlockCore) : BlockCore := { b with upc := b.upc + 1 }

/-- One turn of the sequencer: execute ROM[upc], then advance (R118). Past the ROM nothing is left to execute. -/
def seqTurn (b : BlockCore) : BlockCore :=
  match rom[b.upc.toNat]? with
  | some w =>
    match decodeMicro w with
    | .instr i => (microEffect i b).advance
    | .rejected _ => b
  | none => b

/-- `n` turns of the sequencer. -/
def seqTurns : Nat → BlockCore → BlockCore
  | 0, b => b
  | n + 1, b => seqTurns n (seqTurn b)

/-- A Block Core invocation on the present IN: `upc <- 0`, then 83 turns (R118). -/
@[irreducible] def runBlockCore (b : BlockCore) : BlockCore := seqTurns 83 { b with upc := 0 }

/-- One iteration: four column quarter-rounds, then four diagonal ones (R117). -/
def doubleRound (x : Vector Word 16) : Vector Word 16 :=
  let x := quarterRound 0 4 8 12 x
  let x := quarterRound 1 5 9 13 x
  let x := quarterRound 2 6 10 14 x
  let x := quarterRound 3 7 11 15 x
  let x := quarterRound 0 5 10 15 x
  let x := quarterRound 1 6 11 12 x
  let x := quarterRound 2 7 8 13 x
  quarterRound 3 4 9 14 x

/-- `n` iterations. -/
def doubleRounds : Nat → Vector Word 16 → Vector Word 16
  | 0, x => x
  | n + 1, x => doubleRounds n (doubleRound x)

/-- `permute`: ten iterations, the feed-forward, the serialisation (R117). The engine runs the ROM; that the two agree is
R118. -/
@[irreducible] def permute (inp : Vector Word 16) : Vector Byte 64 := serialise (addWords (doubleRounds 10 inp) inp)

end Sys2Proof.Machine
end

