-- ==== Sys2Proof/Machine/StreamEngine.lean ====
section
/-! DEFINITION. The Stream Cipher Engine: INIT and PROCESS with its steps DRAIN, BLOCKS and TAIL
(spec/41_stream_engine.md). -/

namespace Sys2Proof.Machine

/-- SIGMA[0..3], the constant header "expand 32-byte k" read little-endian; hardwired (spec/10_state.md R23). -/
def sigma : Vector Word 4 := #v[0x61707865, 0x3320646e, 0x79622d32, 0x6b206574]

/-- SIGMA ++ K ++ CN, the sixteen input words (R148). -/
def assembleInput (k : Vector Word 8) (cn : Vector Word 4) : Vector Word 16 := sigma ++ k ++ cn

/-- INIT keyptr, ncptr (R141, R142). -/
def execInit (keyptr ncptr : Nat) (s : State) : Host.Outcome State Fault Refusal :=
  dropIfFaulted s <|
    match initFault keyptr ncptr with
    | some c => .next (raiseFault c s)
    | none =>
      .next { s with
        k := loadWords 8 s.mem keyptr
        cn := loadWords 4 s.mem ncptr
        rem := 0
        phase := .fresh }

/-- BLOCK: latch SIGMA, K and CN into IN and run the Block Core; the block is then in OUT (R148). -/
def block (s : State) : State := { s with bc := runBlockCore { s.bc with inp := assembleInput s.k s.cn } }

/-- How many bytes the drain step serves: min(LEN, REM) (R151). -/
def drainCount (s : State) (len : Nat) : Nat := min len s.rem.toNat

/-- The unused bytes of BUF that the drain step takes: BUF[off] to BUF[off + n - 1] with off = 64 - REM (R151). -/
def drainBytes (s : State) (len : Nat) : List Byte := (s.buf.toList.drop (64 - s.rem.toNat)).take (drainCount s len)

/-- The INCR of the drain step: exactly when REM has become 0 (R151). -/
def incrIfDrained (s : State) : State := if s.rem = 0 then incr s else s

/-- Step 1, DRAIN (R151). -/
def drain (src dst len : Nat) (s : State) : State :=
  if s.rem = 0 then s
  else
    incrIfDrained { s with
      mem := xorRun src dst (drainBytes s len) s.mem
      rem := s.rem - BitVec.ofNat 6 (drainCount s len) }

/-- One whole block: its keystream meets the 64 bytes at `src`, then INCR (R152). -/
def wholeBlock (src dst : Nat) (s : State) : State :=
  let t := block s
  incr { t with mem := xorRun src dst t.bc.out.toList t.mem }

/-- Step 2, BLOCKS: `n` whole blocks from `src` and `dst` on (R152). -/
def blocks : Nat → Nat → Nat → State → State
  | 0, _, _, s => s
  | n + 1, src, dst, s => blocks n (src + 64) (dst + 64) (wholeBlock src dst s)

/-- Step 3, TAIL: `r` leftover bytes from `src` and `dst` on, 0 to 63 of them (R153). -/
def tail (src dst r : Nat) (s : State) : State :=
  if r = 0 then s
  else
    let t := block s
    { t with
      buf := t.bc.out
      mem := xorRun src dst (t.bc.out.toList.take r) t.mem
      rem := BitVec.ofNat 6 (64 - r) }

/-- The execution of a PROCESS that raises no fault: the three steps, PHASE (R150, R154), and the Block Core's registers
left unspecified (spec/10_state.md R29; log 3). -/
def processRun (src dst len : Nat) (s : State) : State :=
  let i := drainCount s len
  let full := (len - i) / 64
  let j := i + 64 * full
  let t := tail (src + j) (dst + j) ((len - i) % 64) (blocks full (src + i) (dst + i) (drain src dst len s))
  releaseBlockCore { t with phase := .streaming }

/-- PROCESS src, dst, len (R150). -/
def execProcess (src dst len : Nat) (s : State) : Host.Outcome State Fault Refusal :=
  dropIfFaulted s <|
    match processFault src dst len s with
    | some c => .next (raiseFault c s)
    | none => .next (processRun src dst len s)

end Sys2Proof.Machine
end

