-- ==== Sys2Proof/Machine/HostPort.lean ====
section
/-! DEFINITION. What the host does between commands besides issuing one: the reset event, the status port and data memory
(spec/70_reset_and_hazards.md R220). -/

namespace Sys2Proof.Machine

/-- The status port returns a word; the read has no other effect (spec/10_state.md R32). -/
def statusAnswer (v : Word) (s : State) : Host.Outcome State Fault Refusal := .next { s with resp := .word v }

/-- A read of CN[i]: while PHASE = UNINIT the register holds no value and each read draws a free one
(spec/10_state.md R34; log 4). -/
def counterAnswer (v : Word) (s : State) : Host.Outcome State Fault Refusal :=
  if s.phase = .uninit then
    .next { s with resp := .word (Config.freeWord s.draws), draws := s.draws + 1 }
  else statusAnswer v s

/-- A host read of the status port: the five aligned 32-bit reads, everything else refused (spec/10_state.md R32). -/
def statusRead (width : AccessWidth) (offset : Nat) (s : State) : Host.Outcome State Fault Refusal :=
  match width with
  | .byte => .refused .statusAccess
  | .half => .refused .statusAccess
  | .word =>
    if offset = 0x00 then statusAnswer (statusWord s) s
    else if offset = 0x04 then counterAnswer s.cn[0] s
    else if offset = 0x08 then counterAnswer s.cn[1] s
    else if offset = 0x0C then counterAnswer s.cn[2] s
    else if offset = 0x10 then counterAnswer s.cn[3] s
    else .refused .statusAccess

/-- A host read of one byte of data memory. -/
def hostMemRead (a : Word) (s : State) : State := { s with resp := .byte (s.mem.read a.toNat) }

/-- A host write of one byte of data memory. -/
def hostMemWrite (a : Word) (v : Byte) (s : State) : State := { s with mem := s.mem.write a.toNat v }

end Sys2Proof.Machine
end

