-- ==== Sys2Proof/Machine/Dispatch.lean ====
section
/-! DEFINITION. One arm per constructor of Instr, each a call of that instruction's meaning. -/

namespace Sys2Proof.Machine

def exec (i : Instr) (s : State) : Host.Outcome State Fault Refusal :=
  match i with
  | .init keyptr ncptr => Sys2Proof.Machine.execInit keyptr ncptr s
  | .process src dst len => Sys2Proof.Machine.execProcess src dst len s
  | .ldx => Sys2Proof.Machine.execLdx s
  | .qrCol0 => Sys2Proof.Machine.execQrCol0 s
  | .qrCol1 => Sys2Proof.Machine.execQrCol1 s
  | .qrCol2 => Sys2Proof.Machine.execQrCol2 s
  | .qrCol3 => Sys2Proof.Machine.execQrCol3 s
  | .qrDiag0 => Sys2Proof.Machine.execQrDiag0 s
  | .qrDiag1 => Sys2Proof.Machine.execQrDiag1 s
  | .qrDiag2 => Sys2Proof.Machine.execQrDiag2 s
  | .qrDiag3 => Sys2Proof.Machine.execQrDiag3 s
  | .ffw => Sys2Proof.Machine.execFfw s
  | .ser => Sys2Proof.Machine.execSer s

end Sys2Proof.Machine
end

