-- ==== Sys2Proof/Machine/Fetch.lean ====
section
/-! DEFINITION. Where the next instruction comes from: the host's next interaction between commands, the ROM entry at upc
inside a Block Core invocation. -/

namespace Sys2Proof.Machine

/-- A descriptor captured at the command port: decode, then execute or raise ILLEGAL_CMD (spec/30_encoding.md R80, R87,
R88); dropped while FAULT = 1 (spec/60_exceptions.md R188). -/
def issueCommand (d : BitVec 128) (s : State) : Host.Outcome State Fault Refusal :=
  match decodeCommand d with
  | .instr i => exec i s
  | .rejected _ => illegalCommand s

/-- One host interaction (spec/70_reset_and_hazards.md R220). -/
def hostStep (act : HostAct) (s : State) : Host.Outcome State Fault Refusal :=
  match act with
  | .reset => .next (resetEvent s)
  | .issue d => issueCommand d s
  | .statusRead width offset => statusRead width offset s
  | .statusWrite _ _ _ => .refused .statusAccess
  | .memRead a => .next (hostMemRead a s)
  | .memWrite a v => .next (hostMemWrite a v s)

/-- The next host interaction; with none left the engine waits, unchanged (spec/70_reset_and_hazards.md R221). -/
def hostTurn (s : State) : Host.Outcome State Fault Refusal :=
  match s.host with
  | [] => .next s
  | act :: rest => hostStep act { s with host := rest }

/-- After a micro-op: `upc <- upc + 1`, and after ROM[82] the invocation is complete (spec/40_block_core.md R118). -/
def finishMicroOp (s : State) : State :=
  { s with bc := s.bc.advance, seqRunning := decide (s.bc.upc.toNat + 1 < rom.length) }

/-- One turn of the sequencer as a step of its own: fetch ROM[upc], execute it, advance (spec/40_block_core.md R118). -/
def microTurn (s : State) : Host.Outcome State Fault Refusal :=
  match rom[s.bc.upc.toNat]? with
  | none => .fault .upcOutsideRom
  | some w =>
    match decodeMicro w with
    | .rejected _ => .refused .reservedMicroOp
    | .instr i =>
      match exec i s with
      | .next t => .next (finishMicroOp t)
      | .fault r => .fault r
      | .refused r => .refused r

/-- The state whose next step takes the word from where the hardware takes it: a descriptor is the host's next command, a
micro-op word is the ROM entry that holds it, with the sequencer running there. A micro-op word that the ROM does not hold
is nowhere to be fetched from: nothing is placed (log 7). -/
def placeCode (c : Code) (s : State) : State :=
  match c with
  | .command d => { s with host := .issue d :: s.host, seqRunning := false }
  | .micro w =>
    match rom.findIdx? (· = w) with
    | some n => { s with bc := { s.bc with upc := BitVec.ofNat 7 n }, seqRunning := true }
    | none => s

end Sys2Proof.Machine
end

