-- ==== Sys2Proof/Machine/Step.lean ====
section
/-! DEFINITION. One step of the machine, and placing an instruction where the next step takes it from. -/

namespace Sys2Proof.Machine

/-- One step: inside a Block Core invocation the sequencer's turn (spec/40_block_core.md R118), otherwise the host's next
interaction, a command being one step (spec/70_reset_and_hazards.md R216). -/
def step (s : State) : Host.Outcome State Fault Refusal :=
  if s.seqRunning then microTurn s else hostTurn s

/-- `s` with the instruction of bits `w` placed where `step` takes its next instruction from. -/
def State.withFetchWord (s : State) (nbits w : Nat) : State :=
  match tableCode nbits w with
  | some c => placeCode c s
  | none => s

end Sys2Proof.Machine
end

