-- ==== Sys2Proof/Safety.lean ====
section
/-! DEFINITION. What counts as a safe run, in the terms the claims use: the launch premises of spec/70_reset_and_hazards.md
R222, the invariant of the state (spec/10_state.md R26), and the keystream a session is measured against
(spec/41_stream_engine.md R156). -/

namespace Sys2Proof.Machine

/-- NoFault (R222). -/
abbrev NoFault (s : State) : Prop := s.fault = false

/-- Inited (R222). -/
abbrev Inited (s : State) : Prop := s.phase ≠ .uninit

/-- RangesInMemory (R222) for the buffers of one PROCESS; with LEN = 0 no address is used. -/
abbrev RangesInMemory (src dst len : Nat) : Prop := len = 0 ∨ (src + len ≤ 2 ^ 32 ∧ dst + len ≤ 2 ^ 32)

/-- EqualOrDisjoint (R222; spec/20_memory.md R62). -/
abbrev EqualOrDisjoint (src dst len : Nat) : Prop := src = dst ∨ src + len ≤ dst ∨ dst + len ≤ src

/-- BelowLimit (R222) for one PROCESS: its increments do not take the 64-bit counter to 2^64. -/
abbrev BelowLimit (s : State) (len : Nat) : Prop := ctr64 s.cn + incCount s.rem.toNat len < 2 ^ 64

/-- The premises under which a PROCESS completes (R222). -/
abbrev ProcessReady (s : State) (src dst len : Nat) : Prop :=
  NoFault s ∧ Inited s ∧ RangesInMemory src dst len ∧ EqualOrDisjoint src dst len ∧ BelowLimit s len

/-- The invariant between steps: BUF holds the block of the present counter while bytes of it are unused (I2 of
spec/10_state.md R26), no byte is buffered before an INIT, FAULT and CAUSE go together (R28), memory is canonical, and a
running sequencer is at a ROM entry (R30). I1 is the width of REM. -/
abbrev State.Inv (s : State) : Prop :=
  (s.rem ≠ 0 → s.buf = permute (assembleInput s.k s.cn)) ∧
  (s.phase = .uninit → s.rem = 0) ∧
  (s.fault = false ↔ s.cause = .none) ∧
  s.mem.wf = true ∧
  (s.seqRunning = true → s.bc.upc.toNat ≤ 82)

/-- The counter and nonce words of block number `n` (spec/41_stream_engine.md R156). -/
def counterWords (n : Nat) (nonce2 nonce3 : Word) : Vector Word 4 :=
  #v[BitVec.ofNat 32 n, BitVec.ofNat 32 (n / 2 ^ 32), nonce2, nonce3]

/-- KSB(n): the keystream block of number `n` (spec/41_stream_engine.md R156). -/
def keystreamBlock (k : Vector Word 8) (nonce2 nonce3 : Word) (n : Nat) : Vector Byte 64 :=
  permute (assembleInput k (counterWords n nonce2 nonce3))

/-- The keystream byte at position `p` counted from block number 0: with p = 64 * C0 + q it is KS(q) of
spec/41_stream_engine.md R156. -/
def keystreamByte (k : Vector Word 8) (nonce2 nonce3 : Word) (p : Nat) : Byte :=
  (keystreamBlock k nonce2 nonce3 (p / 64))[p % 64]'(Nat.mod_lt _ (by decide))

/-- The stream position counted from block number 0: 64 * ctr64 and the consumed bytes of a buffered block
(spec/10_state.md R31). -/
def streamPos (s : State) : Nat := 64 * ctr64 s.cn + (64 - s.rem.toNat) % 64

/-- Instructions one after the other; the run ends at the first that answers no next state. -/
def execAll : List Instr → State → Host.Outcome State Fault Refusal
  | [], s => .next s
  | i :: rest, s =>
    match exec i s with
    | .next t => execAll rest t
    | .fault r => .fault r
    | .refused r => .refused r

/-- A buffer processed in pieces of the given lengths, the addresses advanced by the host (HZ9 of
spec/70_reset_and_hazards.md R217). -/
def pieces : Nat → Nat → List Nat → List Instr
  | _, _, [] => []
  | src, dst, n :: rest => .process src dst n :: pieces (src + n) (dst + n) rest

/-- Two states that the engine's outputs and later commands cannot tell apart: all but BUF while no byte of it is unused,
and the Block Core's registers (spec/10_state.md R39). `draws` only numbers the free values. -/
abbrev SameSession (s t : State) : Prop :=
  s.k = t.k ∧ s.cn = t.cn ∧ s.rem = t.rem ∧ (s.rem ≠ 0 → s.buf = t.buf) ∧ s.phase = t.phase ∧ s.fault = t.fault ∧
  s.cause = t.cause ∧ s.mem = t.mem

end Sys2Proof.Machine
end

