-- ==== Sys2Proof/Certificates/Slice0/Obligations.lean ====
section
/-! DEFINITION. The statements for the provers, in the order of spec/: encoding, words, Block Core, Stream Cipher Engine,
faults, host interface, and what holds of the whole machine. -/

open Sys2Proof Sys2Proof.Machine

/-! ### Encoding (spec/30_encoding.md) -/

/-- R83: the descriptors that decode to INIT are those of the row's mask and match, A and B are its operands, and the
rule's example decodes as it says. -/
def Obligations.InitDescriptorRow : Prop :=
  (∀ D : BitVec 128, D &&& 0xFFFFFFFF_00000000_00000000_FFFFFFFF = 0x00000000_00000000_00000000_00000001 →
    decode (.command D) = .instr (.init (D.toNat / 2 ^ 32 % 2 ^ 32) (D.toNat / 2 ^ 64 % 2 ^ 32))) ∧
  (∀ (D : BitVec 128) (keyptr ncptr : Nat), decode (.command D) = .instr (.init keyptr ncptr) →
    D &&& 0xFFFFFFFF_00000000_00000000_FFFFFFFF = 0x00000000_00000000_00000000_00000001) ∧
  decode (.command (descriptor 0x00000001 0x00000100 0x00000200 0x00000000)) =
    .instr (.init 0x00000100 0x00000200)

/-- R84: the descriptors that decode to PROCESS are those of the row's mask and match, A, B and L are its operands, and
the rule's example decodes as it says. -/
def Obligations.ProcessDescriptorRow : Prop :=
  (∀ D : BitVec 128, D &&& 0x00000000_00000000_00000000_FFFFFFFF = 0x00000000_00000000_00000000_00000002 →
    decode (.command D) =
      .instr (.process (D.toNat / 2 ^ 32 % 2 ^ 32) (D.toNat / 2 ^ 64 % 2 ^ 32) (D.toNat / 2 ^ 96))) ∧
  (∀ (D : BitVec 128) (src dst len : Nat), decode (.command D) = .instr (.process src dst len) →
    D &&& 0x00000000_00000000_00000000_FFFFFFFF = 0x00000000_00000000_00000000_00000002) ∧
  decode (.command (descriptor 0x00000002 0x00001000 0x00002000 0x00000072)) =
    .instr (.process 0x00001000 0x00002000 114)

/-- R86: the complete command opcode map, over OP = D[7:0]; RSV0 is D[31:8], L is D[127:96]. Every descriptor outside the
two legal rows is refused. -/
def Obligations.LegalDescriptorMap : Prop :=
  ∀ D : BitVec 128,
    ((∃ keyptr ncptr, decode (.command D) = .instr (.init keyptr ncptr)) ↔
      D.toNat % 2 ^ 8 = 0x01 ∧ D.toNat / 2 ^ 8 % 2 ^ 24 = 0 ∧ D.toNat / 2 ^ 96 = 0) ∧
    ((∃ src dst len, decode (.command D) = .instr (.process src dst len)) ↔
      D.toNat % 2 ^ 8 = 0x02 ∧ D.toNat / 2 ^ 8 % 2 ^ 24 = 0) ∧
    ((∃ r, decode (.command D) = .rejected r) ↔
      ¬ (D.toNat % 2 ^ 8 = 0x01 ∧ D.toNat / 2 ^ 8 % 2 ^ 24 = 0 ∧ D.toNat / 2 ^ 96 = 0) ∧
      ¬ (D.toNat % 2 ^ 8 = 0x02 ∧ D.toNat / 2 ^ 8 % 2 ^ 24 = 0))

/-- R87: an illegal command (OP outside the two, RSV0 not 0, INIT with L not 0) raises ILLEGAL_CMD and has no other
effect. -/
def Obligations.IllegalCommandFaults : Prop :=
  ∀ (s : State) (D : BitVec 128) (rest : List HostAct),
    s.seqRunning = false → s.fault = false → s.host = .issue D :: rest →
    ((D.toNat % 2 ^ 8 ≠ 0x01 ∧ D.toNat % 2 ^ 8 ≠ 0x02) ∨ D.toNat / 2 ^ 8 % 2 ^ 24 ≠ 0 ∨
      (D.toNat % 2 ^ 8 = 0x01 ∧ D.toNat / 2 ^ 96 ≠ 0)) →
    step s = .next { s with host := rest, fault := true, cause := .illegalCmd }

/-- R94: a word that is none of the eleven of R91 and R93 is refused by the decoder and stands nowhere in the ROM; the
eleven decode to their micro-ops. -/
def Obligations.ReservedMicroWords : Prop :=
  (∀ w : BitVec 20,
    w ∉ [0x10000, 0x2048C, 0x2159D, 0x226AE, 0x237BF, 0x205AF, 0x216BC, 0x2278D, 0x2349E, 0x30000, 0x40000] →
    (∃ r, decode (.micro w) = .rejected r) ∧ w ∉ rom) ∧
  [0x10000, 0x2048C, 0x2159D, 0x226AE, 0x237BF, 0x205AF, 0x216BC, 0x2278D, 0x2349E, 0x30000, 0x40000].map
      (fun w => decode (.micro w)) =
    [.instr .ldx, .instr .qrCol0, .instr .qrCol1, .instr .qrCol2, .instr .qrCol3, .instr .qrDiag0, .instr .qrDiag1,
      .instr .qrDiag2, .instr .qrDiag3, .instr .ffw, .instr .ser]

/-- Decoding an encoded well-formed instruction gives it back, with every operand at every value its word admits
(sections 2 and 5). -/
def Obligations.DecodeOfEncode : Prop :=
  ∀ i : Instr, i.wf = true → decode (encode i) = .instr i

/-- Each word has at most one meaning: what the decoder reads from a word is well-formed and encodes to that word
(sections 4 and 5). -/
def Obligations.EncodeOfDecode : Prop :=
  ∀ (c : Code) (i : Instr), decode c = .instr i → i.wf = true ∧ encode i = c

/-- Words written out from R83, R84, R91 and R93 decode to the instructions they stand for. -/
def Obligations.ListedWordsDecode : Prop :=
  decodeTableWord 128 0x00000000_00000200_00000100_00000001 = some (.init 0x100 0x200) ∧
  decodeTableWord 128 0x00000072_00002000_00001000_00000002 = some (.process 0x1000 0x2000 114) ∧
  decodeTableWord 24 0x10000 = some .ldx ∧
  decodeTableWord 24 0x216BC = some .qrDiag1 ∧
  decodeTableWord 24 0x30000 = some .ffw ∧
  decodeTableWord 24 0x40000 = some .ser

/-! ### Words (spec/00_scope.md section 6, spec/40_block_core.md section 5) -/

/-- R9: LE32 and BYTE as the rule gives them, and that the word of a word's bytes is that word. -/
def Obligations.LittleEndianConversion : Prop :=
  (∀ b0 b1 b2 b3 : Byte,
    (le32 b0 b1 b2 b3).toNat = b0.toNat + 256 * b1.toNat + 65536 * b2.toNat + 16777216 * b3.toNat) ∧
  (∀ (w : Word) (j : Nat), j ≤ 3 → (byteOf w j).toNat = w.toNat / 256 ^ j % 256) ∧
  (∀ w : Word, le32 (byteOf w 0) (byteOf w 1) (byteOf w 2) (byteOf w 3) = w)

/-- The rotation of section 6 of spec/00_scope.md (the formula, for every 0 < r < 32), and that no bit is lost
(section 5 of spec/40_block_core.md). -/
def Obligations.RotationFormula : Prop :=
  ∀ (v : Word) (r : Nat), 0 < r → r < 32 →
    (rotl32 v r).toNat = v.toNat * 2 ^ r % 2 ^ 32 + v.toNat / 2 ^ (32 - r) ∧
    ∀ w : Word, rotl32 v r = rotl32 w r → v = w

/-! ### The Block Core (spec/40_block_core.md) -/

/-- R112: LDX, encoded 0x10000, at ROM[0] only, copies IN to X and changes nothing else. -/
def Obligations.LdxCopiesInput : Prop :=
  encode .ldx = .micro 0x10000 ∧
  (∀ n : Nat, rom[n]? = some 0x10000 ↔ n = 0) ∧
  ∀ s : State, exec .ldx s = .next { s with bc := { s.bc with x := s.bc.inp } }

/-- R113: the quarter-round's four lines on four distinct indices, the other words unchanged, and the rule's worked
example. -/
def Obligations.QuarterRoundFunction : Prop :=
  (∀ (a b c d : Fin 16) (X : Vector Word 16), [a, b, c, d].Nodup →
    let a1 := X[a] + X[b]
    let d1 := rotl32 (X[d] ^^^ a1) 16
    let c1 := X[c] + d1
    let b1 := rotl32 (X[b] ^^^ c1) 12
    let a2 := a1 + b1
    let d2 := rotl32 (d1 ^^^ a2) 8
    let c2 := c1 + d2
    let b2 := rotl32 (b1 ^^^ c2) 7
    let Y := quarterRound a b c d X
    Y[a] = a2 ∧ Y[b] = b2 ∧ Y[c] = c2 ∧ Y[d] = d2 ∧ ∀ i : Fin 16, i ∉ [a, b, c, d] → Y[i] = X[i]) ∧
  ∀ X : Vector Word 16, X[0] = 0x11111111 → X[4] = 0x01020304 → X[8] = 0x9b8d6f43 → X[12] = 0x01234567 →
    (quarterRound 0 4 8 12 X)[0] = 0xea2a92f4 ∧ (quarterRound 0 4 8 12 X)[4] = 0xcb1cf8ce ∧
    (quarterRound 0 4 8 12 X)[8] = 0x4581472e ∧ (quarterRound 0 4 8 12 X)[12] = 0x5881c4bb

/-- R114 for each of the eight tuples of R93: the QR micro-op's word and its ten places in the ROM, its effect on X
through QRF and on nothing else, and zeros staying zeros; then the rule's example. The tuples are the spec's own supply
(R93 marks them). -/
def Obligations.QuarterRoundMicroOps : Prop :=
  (∀ row ∈ ([(.qrCol0, 0, 4, 8, 12, 0), (.qrCol1, 1, 5, 9, 13, 1), (.qrCol2, 2, 6, 10, 14, 2), (.qrCol3, 3, 7, 11, 15, 3),
      (.qrDiag0, 0, 5, 10, 15, 4), (.qrDiag1, 1, 6, 11, 12, 5), (.qrDiag2, 2, 7, 8, 13, 6), (.qrDiag3, 3, 4, 9, 14, 7)] :
      List (Instr × Fin 16 × Fin 16 × Fin 16 × Fin 16 × Nat)),
    match row with
    | (i, a, b, c, d, slot) =>
      encode i = .micro (BitVec.ofNat 20 (0x20000 + a.val * 4096 + b.val * 256 + c.val * 16 + d.val)) ∧
      (∀ n : Nat, rom[n]? = some (BitVec.ofNat 20 (0x20000 + a.val * 4096 + b.val * 256 + c.val * 16 + d.val)) ↔
        ∃ j < 10, n = 1 + 8 * j + slot) ∧
      (∀ s : State, exec i s = .next { s with bc := { s.bc with x := quarterRound a b c d s.bc.x } }) ∧
      (∀ X : Vector Word 16, X[a] = 0 → X[b] = 0 → X[c] = 0 → X[d] = 0 → quarterRound a b c d X = X)) ∧
  ∀ s : State, s.bc.x[0] = 0x61707865 → s.bc.x[4] = 0x03020100 → s.bc.x[8] = 0x13121110 → s.bc.x[12] = 0x00000001 →
    ∃ t, exec .qrCol0 s = .next t ∧ t.bc.x[0] = 0xabbaa25c ∧ t.bc.x[4] = 0x3a465196 ∧ t.bc.x[8] = 0x6b3ca454 ∧
      t.bc.x[12] = 0xdec62ed2

/-- R115: FFW, encoded 0x30000, at ROM[81] only, adds IN to X word by word and changes nothing else. -/
def Obligations.FfwAddsInput : Prop :=
  encode .ffw = .micro 0x30000 ∧
  (∀ n : Nat, rom[n]? = some 0x30000 ↔ n = 81) ∧
  ∀ s : State, ∃ t, exec .ffw s = .next t ∧ t = { s with bc := { s.bc with x := t.bc.x } } ∧
    ∀ i : Fin 16, t.bc.x[i] = s.bc.x[i] + s.bc.inp[i]

/-- R116: SER, encoded 0x40000, at ROM[82] only, writes the four bytes of each word of X to OUT, least significant first,
and changes nothing else. -/
def Obligations.SerWritesLittleEndian : Prop :=
  encode .ser = .micro 0x40000 ∧
  (∀ n : Nat, rom[n]? = some 0x40000 ↔ n = 82) ∧
  ∀ s : State, ∃ t, exec .ser s = .next t ∧ t = { s with bc := { s.bc with out := t.bc.out } } ∧
    ∀ (i : Nat) (h : i < 16),
      t.bc.out[4 * i].toNat = s.bc.x[i].toNat % 256 ∧
      t.bc.out[4 * i + 1].toNat = s.bc.x[i].toNat / 256 % 256 ∧
      t.bc.out[4 * i + 2].toNat = s.bc.x[i].toNat / 65536 % 256 ∧
      t.bc.out[4 * i + 3].toNat = s.bc.x[i].toNat / 16777216

/-- R92 (spec/30_encoding.md): the 83 entries of the micro-program. -/
def Obligations.RomListing : Prop :=
  rom.length = 83 ∧ rom[0]? = some 0x10000 ∧
  (∀ i < 10, ∀ s < 8, rom[1 + 8 * i + s]? =
    ([0x2048C, 0x2159D, 0x226AE, 0x237BF, 0x205AF, 0x216BC, 0x2278D, 0x2349E] : List (BitVec 20))[s]?) ∧
  rom[81]? = some 0x30000 ∧ rom[82]? = some 0x40000

/-- A Block Core invocation, 83 turns of the sequencer over the ROM, delivers `permute` of IN in OUT, whatever X, OUT and
upc held before, and leaves IN alone. Section 4 marks the equality as its own derivation; that upc is 83 at the end is the
model's reading of the increment after every micro-op (DEDUCED, log 7). -/
def Obligations.SequencerComputesPermute : Prop :=
  ∀ b : BlockCore,
    runBlockCore b =
      { inp := b.inp
        x := addWords (doubleRounds 10 b.inp) b.inp
        out := permute b.inp
        upc := 83 }

/-- The same invocation as 83 steps of the machine, one micro-op a step (section 4): OUT is `permute` of IN, the
sequencer has stopped, and nothing outside the Block Core has changed. That the model can step inside an invocation is
its own choice, and upc = 83 at the end its reading (DESIGN CHOICE and DEDUCED, log 7). -/
def Obligations.MicroStepsComputePermute : Prop :=
  ∀ s : State, s.seqRunning = true → s.bc.upc = 0 →
    core.run 83 s = .next
      { s with
        bc := { inp := s.bc.inp, x := addWords (doubleRounds 10 s.bc.inp) s.bc.inp, out := permute s.bc.inp, upc := 83 }
        seqRunning := false }

/-- Quarter-rounds on disjoint words commute (section 6 (a), marked as derived there). -/
def Obligations.DisjointQuarterRoundsCommute : Prop :=
  ∀ (a b c d e f g h : Fin 16) (X : Vector Word 16), [a, b, c, d, e, f, g, h].Nodup →
    quarterRound a b c d (quarterRound e f g h X) = quarterRound e f g h (quarterRound a b c d X)

/-- The permutation of sixteen zero words is 64 zero bytes (section 7 (a), marked as derived there). -/
def Obligations.PermuteOfZeros : Prop :=
  permute (Vector.replicate 16 0) = Vector.replicate 64 0

/-! ### The Stream Cipher Engine (spec/41_stream_engine.md) -/

/-- R141 with R56 of spec/20_memory.md: INIT in any PHASE loads K and CN little-endian from memory, clears REM, sets PHASE
to FRESH and changes nothing else; out of range it raises ADDR_RANGE; while FAULT = 1 it is dropped; a descriptor of OP
0x01 with RSV0 or L not 0 is no INIT. -/
def Obligations.InitLoadsContext : Prop :=
  (∀ (keyptr ncptr : Nat) (s : State), s.fault = false → keyptr + 32 ≤ 2 ^ 32 → ncptr + 16 ≤ 2 ^ 32 →
    ∃ t, exec (.init keyptr ncptr) s = .next t ∧
      t = { s with k := t.k, cn := t.cn, rem := 0, phase := .fresh } ∧
      (∀ i : Fin 8, t.k[i] =
        le32 (s.mem.read (keyptr + 4 * i.val)) (s.mem.read (keyptr + (4 * i.val + 1)))
          (s.mem.read (keyptr + (4 * i.val + 2))) (s.mem.read (keyptr + (4 * i.val + 3)))) ∧
      ∀ i : Fin 4, t.cn[i] =
        le32 (s.mem.read (ncptr + 4 * i.val)) (s.mem.read (ncptr + (4 * i.val + 1)))
          (s.mem.read (ncptr + (4 * i.val + 2))) (s.mem.read (ncptr + (4 * i.val + 3)))) ∧
  (∀ (keyptr ncptr : Nat) (s : State), s.fault = false → (keyptr + 32 > 2 ^ 32 ∨ ncptr + 16 > 2 ^ 32) →
    exec (.init keyptr ncptr) s = .next { s with fault := true, cause := .addrRange }) ∧
  (∀ (keyptr ncptr : Nat) (s : State), s.fault = true → exec (.init keyptr ncptr) s = .next s) ∧
  ∀ D : BitVec 128, D.toNat % 2 ^ 8 = 0x01 → (D.toNat / 2 ^ 8 % 2 ^ 24 ≠ 0 ∨ D.toNat / 2 ^ 96 ≠ 0) →
    ∃ r, decode (.command D) = .rejected r

/-- The counter increment (section 3 of spec/41_stream_engine.md): INCR writes CN[0], and CN[1] when CN[0] becomes 0; as
one number it is ctr64 + 1 below 2^64; and the section's example. That a PROCESS which raises no fault advances ctr64 by
exactly INC(REM, LEN), and so never to 2^64, is marked as derived there. -/
def Obligations.CounterIncrement : Prop :=
  (∀ cn : Vector Word 4,
    (incrCn cn)[0] = cn[0] + 1 ∧ (incrCn cn)[1] = (if cn[0] + 1 = 0 then cn[1] + 1 else cn[1]) ∧
    (incrCn cn)[2] = cn[2] ∧ (incrCn cn)[3] = cn[3]) ∧
  (∀ cn : Vector Word 4, ctr64 cn + 1 < 2 ^ 64 → ctr64 (incrCn cn) = ctr64 cn + 1) ∧
  (∀ s : State, incr s = { s with cn := incrCn s.cn }) ∧
  (∀ (s t : State) (src dst len : Nat), s.fault = false → exec (.process src dst len) s = .next t → t.fault = false →
    ctr64 s.cn + incCount s.rem.toNat len < 2 ^ 64 ∧ ctr64 t.cn = ctr64 s.cn + incCount s.rem.toNat len) ∧
  incrCn #v[0xFFFFFFFF, 0x00000009, 0, 0] = #v[0x00000000, 0x0000000A, 0, 0]

/-- R151: the drain step of a PROCESS serves min(LEN, REM) bytes from BUF at offset 64 - REM, lowers REM by that, performs
INCR exactly when REM becomes 0, leaves BUF and the rest alone, and does nothing when REM = 0. -/
def Obligations.DrainStep : Prop :=
  ∀ (src dst len : Nat) (s : State), s.mem.wf = true → EqualOrDisjoint src dst len → dst + len ≤ 2 ^ 32 →
    (s.rem = 0 → drain src dst len s = s) ∧
    (s.rem ≠ 0 →
      drain src dst len s =
        { s with
          mem := (drain src dst len s).mem
          rem := s.rem - BitVec.ofNat 6 (min len s.rem.toNat)
          cn := if s.rem.toNat ≤ len then incrCn s.cn else s.cn } ∧
      (drain src dst len s).rem.toNat = s.rem.toNat - min len s.rem.toNat ∧
      (∀ j < min len s.rem.toNat, (drain src dst len s).mem.read (dst + j) =
        s.mem.read (src + j) ^^^ (s.buf.toList[64 - s.rem.toNat + j]?).getD 0) ∧
      ∀ a, (a < dst ∨ dst + min len s.rem.toNat ≤ a) → (drain src dst len s).mem.read a = s.mem.read a)

/-- The whole-block step (section 4, step 2): each block of 64 bytes meets the keystream block of the counter words of
that moment, the counter advances once for each block, and BUF, REM and the rest are left alone. -/
def Obligations.WholeBlockStep : Prop :=
  (∀ (src dst : Nat) (s : State), s.mem.wf = true → EqualOrDisjoint src dst 64 → dst + 64 ≤ 2 ^ 32 →
    wholeBlock src dst s =
      { s with
        mem := (wholeBlock src dst s).mem
        cn := incrCn s.cn
        bc := (wholeBlock src dst s).bc } ∧
    (∀ j : Fin 64, (wholeBlock src dst s).mem.read (dst + j.val) =
      s.mem.read (src + j.val) ^^^ (permute (assembleInput s.k s.cn))[j]) ∧
    ∀ a, (a < dst ∨ dst + 64 ≤ a) → (wholeBlock src dst s).mem.read a = s.mem.read a) ∧
  (∀ (src dst : Nat) (s : State), blocks 0 src dst s = s) ∧
  ∀ (n src dst : Nat) (s : State),
    blocks (n + 1) src dst s = blocks n (src + 64) (dst + 64) (wholeBlock src dst s)

/-- The tail step of r bytes (section 4 of spec/41_stream_engine.md, step 3), 1 to 63 of them, fills BUF with the block of
the present counter, serves its first r bytes, sets REM to 64 - r, and performs no INCR; with r = 0 it does nothing. That
REM = 0 when the tail step is entered with bytes left after the drain step is marked as derived there. -/
def Obligations.TailStep : Prop :=
  (∀ (src dst r : Nat) (s : State), s.mem.wf = true → EqualOrDisjoint src dst r → dst + r ≤ 2 ^ 32 → r < 64 →
    (r = 0 → tail src dst r s = s) ∧
    (0 < r →
      tail src dst r s =
        { s with
          mem := (tail src dst r s).mem
          buf := permute (assembleInput s.k s.cn)
          rem := BitVec.ofNat 6 (64 - r)
          bc := (tail src dst r s).bc } ∧
      (tail src dst r s).rem.toNat = 64 - r ∧
      (∀ j : Fin 64, j.val < r → (tail src dst r s).mem.read (dst + j.val) =
        s.mem.read (src + j.val) ^^^ (permute (assembleInput s.k s.cn))[j]) ∧
      ∀ a, (a < dst ∨ dst + r ≤ a) → (tail src dst r s).mem.read a = s.mem.read a)) ∧
  ∀ (n src dst src' dst' len : Nat) (s : State), min len s.rem.toNat < len →
    (blocks n src' dst' (drain src dst len s)).rem = 0

/-- A PROCESS whose premises hold completes, and leaves (section 4 and the count of section 3): PHASE streaming, the
counter advanced by INC(REM, LEN), REM and BUF as the tail or the drain leaves them, K, the nonce words, FAULT, CAUSE and
the host's side unchanged. The Block Core's registers are left open (log 3). -/
def Obligations.ProcessCompletes : Prop :=
  ∀ (s : State) (src dst len : Nat), ProcessReady s src dst len →
    ∃ t, exec (.process src dst len) s = .next t ∧
      t.phase = .streaming ∧ t.fault = false ∧ t.cause = s.cause ∧ t.k = s.k ∧
      t.cn[2] = s.cn[2] ∧ t.cn[3] = s.cn[3] ∧
      ctr64 t.cn = ctr64 s.cn + incCount s.rem.toNat len ∧
      t.rem.toNat =
        (if len < s.rem.toNat then s.rem.toNat - len else (64 - (len - s.rem.toNat) % 64) % 64) ∧
      t.buf =
        (if len ≤ s.rem.toNat ∨ (len - s.rem.toNat) % 64 = 0 then s.buf else permute (assembleInput t.k t.cn)) ∧
      t.host = s.host ∧ t.resp = s.resp ∧ t.seqRunning = s.seqRunning

/-- The stream law for one PROCESS (section 6 (a) to (d), marked as derived there): from a state whose buffer holds the
block of its counter, the byte at DST + j becomes the byte at SRC + j xor the keystream byte at the stream position plus
j, and the stream position advances by LEN. -/
def Obligations.ProcessStreamLaw : Prop :=
  ∀ (s : State) (src dst len : Nat), s.Inv → ProcessReady s src dst len →
    ∃ t, exec (.process src dst len) s = .next t ∧
      (∀ j < len, t.mem.read (dst + j) =
        s.mem.read (src + j) ^^^ keystreamByte s.k s.cn[2] s.cn[3] (streamPos s + j)) ∧
      streamPos t = streamPos s + len ∧
      (t.rem ≠ 0 → t.buf = keystreamBlock s.k s.cn[2] s.cn[3] (streamPos t / 64))

/-- A PROCESS writes no byte outside DST to DST + LEN - 1 (section 7; spec/20_memory.md sections 1 and 6), whether it
completes, faults or is dropped. -/
def Obligations.ProcessMemoryFrame : Prop :=
  ∀ (s : State) (src dst len : Nat), ∃ t, exec (.process src dst len) s = .next t ∧
    ∀ a, (a < dst ∨ dst + len ≤ a) → t.mem.read a = s.mem.read a

/-- R154: after a PROCESS that does not fault PHASE is STREAMING, with LEN = 0 too, which then changes nothing else the
spec fixes. -/
def Obligations.PhaseAfterProcess : Prop :=
  (∀ (s t : State) (src dst len : Nat), s.fault = false → exec (.process src dst len) s = .next t → t.fault = false →
    t.phase = .streaming) ∧
  ∀ (s : State) (src dst : Nat), NoFault s → Inited s → BelowLimit s 0 →
    ∃ t, exec (.process src dst 0) s = .next t ∧ t = { s with phase := .streaming, bc := t.bc, draws := t.draws }

/-- A whole session (section 6 (b) to (e), marked as derived there): an INIT, then PROCESS commands of total length T with
their buffers in memory and equal or disjoint. None faults exactly when C0 + T div 64 < 2^64, and then ctr64, REM and BUF
are the rule's functions of T. -/
def Obligations.SessionStreamLaw : Prop :=
  ∀ (s : State) (keyptr ncptr : Nat) (cmds : List (Nat × Nat × Nat)),
    s.fault = false → keyptr + 32 ≤ 2 ^ 32 → ncptr + 16 ≤ 2 ^ 32 →
    (∀ c ∈ cmds, RangesInMemory c.1 c.2.1 c.2.2 ∧ EqualOrDisjoint c.1 c.2.1 c.2.2) →
    let C0 := ctr64 (loadWords 4 s.mem ncptr)
    let T := (cmds.map fun c => c.2.2).sum
    ∃ t, execAll (.init keyptr ncptr :: cmds.map fun c => .process c.1 c.2.1 c.2.2) s = .next t ∧
      (C0 + T / 64 < 2 ^ 64 →
        t.fault = false ∧ ctr64 t.cn = C0 + T / 64 ∧ t.rem.toNat = (64 - T % 64) % 64 ∧
        (t.rem ≠ 0 → t.buf = keystreamBlock (loadWords 8 s.mem keyptr) (loadWords 4 s.mem ncptr)[2]
          (loadWords 4 s.mem ncptr)[3] (C0 + T / 64))) ∧
      (C0 + T / 64 ≥ 2 ^ 64 → t.fault = true ∧ t.cause = .ctrLimit)

/-- Chunking invariance (section 6, property (a), marked as derived there): any way of splitting a buffer into pieces
gives the memory, counter, REM and unused keystream of the one call. -/
def Obligations.ChunkingInvariance : Prop :=
  ∀ (s : State) (src dst : Nat) (lens : List Nat), lens ≠ [] → ProcessReady s src dst lens.sum →
    ∃ t u, execAll (pieces src dst lens) s = .next t ∧ exec (.process src dst lens.sum) s = .next u ∧ SameSession t u

/-- Self-inverse (section 6, property (b), marked as derived there): two PROCESS commands from equivalently initialised
contexts, the second over the first's output, give the original bytes back. -/
def Obligations.ProcessSelfInverse : Prop :=
  ∀ (s s' : State) (src dst src' dst' len : Nat),
    s.k = s'.k → s.cn = s'.cn → s.rem = s'.rem → (s.rem ≠ 0 → s.buf = s'.buf) →
    s.mem.wf = true → s'.mem.wf = true → ProcessReady s src dst len → ProcessReady s' src' dst' len →
    ∃ t t', exec (.process src dst len) s = .next t ∧ exec (.process src' dst' len) s' = .next t' ∧
      ((∀ j < len, s'.mem.read (src' + j) = t.mem.read (dst + j)) →
        ∀ j < len, t'.mem.read (dst' + j) = s.mem.read (src + j))

/-- In-place equals out-of-place (section 8 of spec/20_memory.md, marked as derived there): the same bytes, and the same
engine state but for the Block Core's registers, which are left open (log 3). -/
def Obligations.InPlaceEqualsOutOfPlace : Prop :=
  ∀ (s : State) (src dst len : Nat), s.mem.wf = true → ProcessReady s src dst len → src ≠ dst →
    ∃ t u, exec (.process src dst len) s = .next t ∧ exec (.process src src len) s = .next u ∧
      (∀ j < len, u.mem.read (src + j) = t.mem.read (dst + j)) ∧
      u = { t with mem := u.mem, bc := u.bc, draws := u.draws }

/-! ### Faults (spec/60_exceptions.md) -/

/-- R182: a PROCESS in UNINIT raises NOT_INIT, whatever its operands; INIT never does. -/
def Obligations.NotInitFault : Prop :=
  (∀ (s : State) (src dst len : Nat), s.fault = false → s.phase = .uninit →
    exec (.process src dst len) s = .next { s with fault := true, cause := .notInit }) ∧
  ∀ (s t : State) (keyptr ncptr : Nat), s.fault = false → exec (.init keyptr ncptr) s = .next t → t.fault = true →
    t.cause ≠ .notInit

/-- R183: INIT raises ADDR_RANGE exactly when a buffer would pass 2^32; an initialised PROCESS exactly when LEN > 0 and
one of its buffers would. A buffer may end at the top, and LEN = 0 checks no address. -/
def Obligations.AddressRangeFault : Prop :=
  (∀ (s : State) (keyptr ncptr : Nat), s.fault = false →
    (exec (.init keyptr ncptr) s = .next { s with fault := true, cause := .addrRange } ↔
      keyptr + 32 > 2 ^ 32 ∨ ncptr + 16 > 2 ^ 32)) ∧
  ∀ (s : State) (src dst len : Nat), s.fault = false → s.phase ≠ .uninit →
    (exec (.process src dst len) s = .next { s with fault := true, cause := .addrRange } ↔
      0 < len ∧ (src + len > 2 ^ 32 ∨ dst + len > 2 ^ 32))

/-- R184: an initialised PROCESS with its buffers in memory raises OVERLAP exactly when LEN > 0, SRC and DST differ, and
they are closer than LEN: then and only then the two ranges share an address without being the same range. -/
def Obligations.OverlapFault : Prop :=
  ∀ (s : State) (src dst len : Nat), s.fault = false → s.phase ≠ .uninit → RangesInMemory src dst len →
    (exec (.process src dst len) s = .next { s with fault := true, cause := .overlap } ↔
      0 < len ∧ src ≠ dst ∧ (src : Int) - dst < len ∧ (dst : Int) - src < len) ∧
    (exec (.process src dst len) s = .next { s with fault := true, cause := .overlap } ↔
      src ≠ dst ∧ ∃ a, (src ≤ a ∧ a < src + len) ∧ (dst ≤ a ∧ a < dst + len))

/-- The counter limit (section 2, R185's condition) for an initialised PROCESS whose buffers are in order: CTR_LIMIT is
raised exactly when ctr64 + INC(REM, LEN) reaches 2^64, which with nothing buffered is at 64 * (2^64 - ctr64) bytes and
above. -/
def Obligations.CounterLimitFault : Prop :=
  ∀ (s : State) (src dst len : Nat), s.fault = false → s.phase ≠ .uninit → RangesInMemory src dst len →
    EqualOrDisjoint src dst len →
    (exec (.process src dst len) s = .next { s with fault := true, cause := .ctrLimit } ↔
      ctr64 s.cn + ((if 0 < s.rem.toNat ∧ s.rem.toNat ≤ len then 1 else 0) + (len - min len s.rem.toNat) / 64)
        ≥ 2 ^ 64) ∧
    (s.rem = 0 →
      (exec (.process src dst len) s = .next { s with fault := true, cause := .ctrLimit } ↔
        ¬ len ≤ 64 * (2 ^ 64 - ctr64 s.cn) - 1))

/-- R187: one descriptor is checked in the rule's fixed order and reports the first condition that holds; if none does,
no fault is raised. -/
def Obligations.FaultPriority : Prop :=
  ∀ (s : State) (D : BitVec 128) (rest : List HostAct), s.seqRunning = false → s.host = .issue D :: rest →
    let s' := { s with host := rest }
    let faulted (c : Cause) : Host.Outcome State Fault Refusal := .next { s' with fault := true, cause := c }
    (s.fault = true → step s = .next s') ∧
    (s.fault = false → (∀ i, decode (.command D) ≠ .instr i) → step s = faulted .illegalCmd) ∧
    (∀ keyptr ncptr, s.fault = false → decode (.command D) = .instr (.init keyptr ncptr) →
      if keyptr + 32 > 2 ^ 32 ∨ ncptr + 16 > 2 ^ 32 then step s = faulted .addrRange
      else ∃ t, step s = .next t ∧ t.fault = false) ∧
    (∀ src dst len, s.fault = false → decode (.command D) = .instr (.process src dst len) →
      if s.phase = .uninit then step s = faulted .notInit
      else if 0 < len ∧ (src + len > 2 ^ 32 ∨ dst + len > 2 ^ 32) then step s = faulted .addrRange
      else if 0 < len ∧ src ≠ dst ∧ (src < dst + len ∧ dst < src + len) then step s = faulted .overlap
      else if ctr64 s.cn + incCount s.rem.toNat len ≥ 2 ^ 64 then step s = faulted .ctrLimit
      else ∃ t, step s = .next t ∧ t.fault = false)

/-- R186: raising a fault sets FAULT and CAUSE and changes nothing else, whatever instruction raises it. -/
def Obligations.FaultEntryFrame : Prop :=
  (∀ (c : Cause) (s : State), raiseFault c s = { s with fault := true, cause := c }) ∧
  ∀ (i : Instr) (s t : State), s.fault = false → exec i s = .next t → t.fault = true →
    t = { s with fault := true, cause := t.cause } ∧ t.cause ≠ .none

/-- R188: while FAULT = 1 every descriptor is accepted and dropped, with no change but the host having issued it; status
reads keep working. -/
def Obligations.StickyFaultDropsCommands : Prop :=
  ∀ (s : State) (rest : List HostAct), s.fault = true → s.seqRunning = false →
    (∀ D : BitVec 128, s.host = .issue D :: rest → step s = .next { s with host := rest }) ∧
    (s.host = .statusRead .word 0 :: rest → step s = .next { s with host := rest, resp := .word (statusWord s) }) ∧
    (∀ i : Fin 4, s.host = .statusRead .word (4 + 4 * i.val) :: rest →
      (s.phase ≠ .uninit → step s = .next { s with host := rest, resp := .word s.cn[i] }) ∧
      ∃ v d, step s = .next { s with host := rest, resp := .word v, draws := d })

/-- R190: the only exit from FAULT = 1 is reset: any other step keeps FAULT and CAUSE; the reset event leaves the engine
uninitialised, so that the next command that completes is an INIT. -/
def Obligations.OnlyResetLeavesFault : Prop :=
  (∀ s t : State, s.fault = true → step s = .next t →
    (t.fault = true ∧ t.cause = s.cause) ∨ (s.seqRunning = false ∧ ∃ rest, s.host = .reset :: rest)) ∧
  (∀ (s : State) (rest : List HostAct), s.seqRunning = false → s.host = .reset :: rest →
    ∃ t, step s = .next t ∧ t.fault = false ∧ t.phase = .uninit ∧
      ∀ src dst len, ∃ u, exec (.process src dst len) t = .next u ∧ u.fault = true)

/-! ### What a command can depend on (spec/41_stream_engine.md section 5, spec/10_state.md section 8) -/

/-- Which faults a PROCESS raises and the counter, REM and PHASE it leaves depend on the command and on PHASE, FAULT,
CAUSE, REM and the counter words, never on the key, the nonce words, BUF or memory. -/
def Obligations.ControlIndependentOfSecrets : Prop :=
  ∀ (s s' : State) (src dst len : Nat), s.phase = s'.phase → s.fault = s'.fault → s.cause = s'.cause →
    s.rem = s'.rem → s.cn[0] = s'.cn[0] → s.cn[1] = s'.cn[1] →
    ∃ t t', exec (.process src dst len) s = .next t ∧ exec (.process src dst len) s' = .next t' ∧
      t.phase = t'.phase ∧ t.fault = t'.fault ∧ t.cause = t'.cause ∧ t.rem = t'.rem ∧ t.cn[0] = t'.cn[0] ∧
      t.cn[1] = t'.cn[1]

/-- Bytes of BUF that are not unused are never read (section 8 (b) of spec/10_state.md, marked as derived there): with
REM = 0 no instruction's result depends on BUF, and a micro-op's never does. -/
def Obligations.StaleBufferUnobservable : Prop :=
  (∀ (i : Instr) (s : State) (b : Vector Byte 64), s.rem = 0 →
    ∃ t t', exec i s = .next t ∧ exec i { s with buf := b } = .next t' ∧ SameSession t t') ∧
  ∀ (i : Instr) (s : State) (b : Vector Byte 64), (∀ keyptr ncptr, i ≠ .init keyptr ncptr) →
    (∀ src dst len, i ≠ .process src dst len) →
    ∃ t, exec i s = .next t ∧ exec i { s with buf := b } = .next { t with buf := b }

/-- What the Block Core's registers hold between commands reaches no result of a command (section 4 of spec/10_state.md;
section 9, marked as derived there). -/
def Obligations.BlockCoreRegistersUnobservable : Prop :=
  (∀ (keyptr ncptr : Nat) (s : State) (b : BlockCore),
    ∃ t t', exec (.init keyptr ncptr) s = .next t ∧ exec (.init keyptr ncptr) { s with bc := b } = .next t' ∧
      SameSession t t') ∧
  ∀ (src dst len : Nat) (s : State) (b : BlockCore),
    ∃ t t', exec (.process src dst len) s = .next t ∧ exec (.process src dst len) { s with bc := b } = .next t' ∧
      SameSession t t'

/-! ### The host interface (spec/10_state.md sections 5 and 9, spec/70_reset_and_hazards.md) -/

/-- R33: STATUS is PHASE + 4 * FAULT + 16 * CAUSE + 256 * REM with the rule's codes, the rule's four examples, and no
write of it completes. -/
def Obligations.StatusWordFields : Prop :=
  (∀ s : State, (statusWord s).toNat =
    (match s.phase with | .uninit => 0 | .fresh => 1 | .streaming => 2) + 4 * (if s.fault then 1 else 0) +
    16 * (match s.cause with
      | .none => 0 | .illegalCmd => 1 | .notInit => 2 | .addrRange => 3 | .overlap => 4 | .ctrLimit => 5) +
    256 * s.rem.toNat) ∧
  statusWord State.reset = 0x00000000 ∧
  (∀ keyptr ncptr, keyptr + 32 ≤ 2 ^ 32 → ncptr + 16 ≤ 2 ^ 32 →
    ∃ t, exec (.init keyptr ncptr) State.reset = .next t ∧ statusWord t = 0x00000001 ∧
      (ctr64 t.cn + 1 < 2 ^ 64 → ∀ src, src + 114 ≤ 2 ^ 32 →
        ∃ u, exec (.process src src 114) t = .next u ∧ statusWord u = 0x00000E02)) ∧
  (∀ src dst len, ∃ t, exec (.process src dst len) State.reset = .next t ∧ statusWord t = 0x00000024) ∧
  ∀ (s t : State) (width : AccessWidth) (offset : Nat) (v : Word) (rest : List HostAct), s.seqRunning = false →
    s.host = .statusWrite width offset v :: rest → step s ≠ .next t

/-- R34: CN0 to CN3 return CN[0] to CN[3]; while PHASE = UNINIT they return some word, which nothing here says. -/
def Obligations.CounterRegisters : Prop :=
  ∀ (s : State) (i : Fin 4) (rest : List HostAct), s.seqRunning = false →
    s.host = .statusRead .word (4 + 4 * i.val) :: rest →
    (s.phase ≠ .uninit → step s = .next { s with host := rest, resp := .word s.cn[i] }) ∧
    (s.phase = .uninit → ∃ v d, step s = .next { s with host := rest, resp := .word v, draws := d })

/-- R32: five registers, read as whole aligned words, without side effect; every other access of the status port is
reserved, and the model refuses it by name as part 1 of spec/93_implementation_defined.md says. -/
def Obligations.StatusPortAccesses : Prop :=
  ∀ (s : State) (rest : List HostAct), s.seqRunning = false →
    (s.host = .statusRead .word 0x00 :: rest → step s = .next { s with host := rest, resp := .word (statusWord s) }) ∧
    (∀ offset ∈ [0x04, 0x08, 0x0C, 0x10], s.host = .statusRead .word offset :: rest →
      ∃ v d, step s = .next { s with host := rest, resp := .word v, draws := d }) ∧
    (∀ width offset, width ≠ .word ∨ offset ∉ [0x00, 0x04, 0x08, 0x0C, 0x10] →
      s.host = .statusRead width offset :: rest → step s = .refused .statusAccess) ∧
    (∀ width offset v, s.host = .statusWrite width offset v :: rest → step s = .refused .statusAccess)

/-- R210: what the reset event writes; K, CN, BUF and the Block Core's registers are left open, memory is not touched. -/
def Obligations.ResetEventEffect : Prop :=
  ∀ (s : State) (rest : List HostAct), s.seqRunning = false → s.host = .reset :: rest →
    ∃ t, step s = .next t ∧ t.phase = .uninit ∧ t.fault = false ∧ t.cause = .none ∧ t.rem = 0 ∧ t.mem = s.mem ∧
      t.host = rest ∧ t.resp = s.resp ∧ t.seqRunning = false

/-- R40: the values the rule gives for the state after reset; the registers it calls unspecified are not named here. The
engine waits for a command. -/
def Obligations.ResetStateValues : Prop :=
  State.reset.phase = .uninit ∧ State.reset.fault = false ∧ State.reset.cause = .none ∧ State.reset.rem = 0 ∧
  statusWord State.reset = 0x00000000 ∧ sigma = #v[0x61707865, 0x3320646e, 0x79622d32, 0x6b206574] ∧
  step State.reset = .next State.reset

/-- The host reads and writes data memory between commands (section 5 of spec/70_reset_and_hazards.md): a write puts its
byte at its address and changes no other, a read returns the byte stored. -/
def Obligations.HostMemoryAccess : Prop :=
  (∀ (s : State) (a : Word) (v : Byte) (rest : List HostAct), s.seqRunning = false → s.host = .memWrite a v :: rest →
    s.mem.wf = true →
    ∃ t, step s = .next t ∧ t = { s with host := rest, mem := t.mem } ∧ t.mem.read a.toNat = v ∧
      ∀ b, b ≠ a.toNat → t.mem.read b = s.mem.read b) ∧
  ∀ (s : State) (a : Word) (rest : List HostAct), s.seqRunning = false → s.host = .memRead a :: rest →
    step s = .next { s with host := rest, resp := .byte (s.mem.read a.toNat) }

/-- A step whose descriptor decodes to an instruction runs that instruction, the host's interaction being used up
(spec/30_encoding.md section 1); and a descriptor placed by `withFetchWord` is what the next step runs. -/
def Obligations.StepRunsDecodedCommand : Prop :=
  (∀ (s : State) (D : BitVec 128) (rest : List HostAct) (i : Instr), s.seqRunning = false →
    s.host = .issue D :: rest → decode (.command D) = .instr i → step s = exec i { s with host := rest }) ∧
  ∀ (s : State) (w : Nat) (i : Instr), decodeTableWord 128 w = some i →
    step (s.withFetchWord 128 w) = exec i { s with seqRunning := false }

/-- A step of the running sequencer runs the micro-op that the ROM entry at upc decodes to, then advances upc, and stops
after ROM[82] (section 4 of spec/40_block_core.md). That the model can step inside an invocation is its own choice
(log 7). -/
def Obligations.StepRunsDecodedMicroOp : Prop :=
  ∀ (s t : State) (w : BitVec 20) (i : Instr), s.seqRunning = true → rom[s.bc.upc.toNat]? = some w →
    decode (.micro w) = .instr i → exec i s = .next t →
    step s = .next
      { t with bc := { t.bc with upc := s.bc.upc + 1 }, seqRunning := decide (s.bc.upc.toNat ≠ 82) }

/-! ### The whole machine -/

/-- The invariant holds after reset. -/
def Obligations.InvariantAtReset : Prop :=
  State.reset.Inv

/-- Every step keeps the invariant (the induction of section 2 of spec/10_state.md, marked as derived there). -/
def Obligations.StepKeepsInvariant : Prop :=
  ∀ s t : State, s.Inv → step s = .next t → t.Inv

/-- The engine always has a step (spec/60_exceptions.md section 7): nothing is stuck and no run ends in a fault; what is
refused is a reserved access to the status port and nothing else. -/
def Obligations.StepAlwaysAnswers : Prop :=
  ∀ s : State, s.Inv → (∃ t, step s = .next t) ∨
    (step s = .refused .statusAccess ∧ s.seqRunning = false ∧ ∃ rest,
      (∃ width offset, (width ≠ .word ∨ offset ∉ [0x00, 0x04, 0x08, 0x0C, 0x10]) ∧
        s.host = .statusRead width offset :: rest) ∨
      ∃ width offset v, s.host = .statusWrite width offset v :: rest)

/-- Within a session the key and the last two nonce words do not change: only an INIT or the reset event writes them
(section 2 of spec/41_stream_engine.md, marked as derived there; section 2 of spec/10_state.md). -/
def Obligations.KeyWrittenByInitOnly : Prop :=
  ∀ s t : State, step s = .next t →
    (t.k = s.k ∧ t.cn[2] = s.cn[2] ∧ t.cn[3] = s.cn[3]) ∨
    (s.seqRunning = false ∧ ∃ rest,
      s.host = .reset :: rest ∨
      ∃ D keyptr ncptr, s.host = .issue D :: rest ∧ decode (.command D) = .instr (.init keyptr ncptr))

/-- Only a PROCESS and the host's own writes change data memory, a PROCESS inside its destination only
(spec/20_memory.md sections 1 and 6, spec/70_reset_and_hazards.md section 1). -/
def Obligations.MemoryWriters : Prop :=
  ∀ s t : State, step s = .next t → t.mem = s.mem ∨
    (s.seqRunning = false ∧ ∃ rest,
      (∃ a v, s.host = .memWrite a v :: rest) ∨
      ∃ D src dst len, s.host = .issue D :: rest ∧ decode (.command D) = .instr (.process src dst len) ∧
        ∀ a, (a < dst ∨ dst + len ≤ a) → t.mem.read a = s.mem.read a)
end

