-- ==== Sys2Proof/Laws/State.lean ====
section
/-! SUPPORT. One lemma per field per named update of the state: no later proof unfolds a record update. -/

namespace Sys2Proof.Machine

@[simp] theorem raiseFault_k (c : Cause) (s : State) : (raiseFault c s).k = s.k := rfl
@[simp] theorem raiseFault_cn (c : Cause) (s : State) : (raiseFault c s).cn = s.cn := rfl
@[simp] theorem raiseFault_buf (c : Cause) (s : State) : (raiseFault c s).buf = s.buf := rfl
@[simp] theorem raiseFault_rem (c : Cause) (s : State) : (raiseFault c s).rem = s.rem := rfl
@[simp] theorem raiseFault_phase (c : Cause) (s : State) : (raiseFault c s).phase = s.phase := rfl
@[simp] theorem raiseFault_fault (c : Cause) (s : State) : (raiseFault c s).fault = true := rfl
@[simp] theorem raiseFault_cause (c : Cause) (s : State) : (raiseFault c s).cause = c := rfl
@[simp] theorem raiseFault_bc (c : Cause) (s : State) : (raiseFault c s).bc = s.bc := rfl
@[simp] theorem raiseFault_mem (c : Cause) (s : State) : (raiseFault c s).mem = s.mem := rfl
@[simp] theorem raiseFault_host (c : Cause) (s : State) : (raiseFault c s).host = s.host := rfl
@[simp] theorem raiseFault_resp (c : Cause) (s : State) : (raiseFault c s).resp = s.resp := rfl
@[simp] theorem raiseFault_seqRunning (c : Cause) (s : State) : (raiseFault c s).seqRunning = s.seqRunning := rfl
@[simp] theorem raiseFault_draws (c : Cause) (s : State) : (raiseFault c s).draws = s.draws := rfl

@[simp] theorem incr_k (s : State) : (incr s).k = s.k := rfl
@[simp] theorem incr_cn (s : State) : (incr s).cn = incrCn s.cn := rfl
@[simp] theorem incr_buf (s : State) : (incr s).buf = s.buf := rfl
@[simp] theorem incr_rem (s : State) : (incr s).rem = s.rem := rfl
@[simp] theorem incr_phase (s : State) : (incr s).phase = s.phase := rfl
@[simp] theorem incr_fault (s : State) : (incr s).fault = s.fault := rfl
@[simp] theorem incr_cause (s : State) : (incr s).cause = s.cause := rfl
@[simp] theorem incr_bc (s : State) : (incr s).bc = s.bc := rfl
@[simp] theorem incr_mem (s : State) : (incr s).mem = s.mem := rfl
@[simp] theorem incr_host (s : State) : (incr s).host = s.host := rfl
@[simp] theorem incr_resp (s : State) : (incr s).resp = s.resp := rfl
@[simp] theorem incr_seqRunning (s : State) : (incr s).seqRunning = s.seqRunning := rfl
@[simp] theorem incr_draws (s : State) : (incr s).draws = s.draws := rfl

@[simp] theorem releaseBlockCore_k (s : State) : (releaseBlockCore s).k = s.k := rfl
@[simp] theorem releaseBlockCore_cn (s : State) : (releaseBlockCore s).cn = s.cn := rfl
@[simp] theorem releaseBlockCore_buf (s : State) : (releaseBlockCore s).buf = s.buf := rfl
@[simp] theorem releaseBlockCore_rem (s : State) : (releaseBlockCore s).rem = s.rem := rfl
@[simp] theorem releaseBlockCore_phase (s : State) : (releaseBlockCore s).phase = s.phase := rfl
@[simp] theorem releaseBlockCore_fault (s : State) : (releaseBlockCore s).fault = s.fault := rfl
@[simp] theorem releaseBlockCore_cause (s : State) : (releaseBlockCore s).cause = s.cause := rfl
@[simp] theorem releaseBlockCore_bc (s : State) : (releaseBlockCore s).bc = freeBlockCore s.draws := rfl
@[simp] theorem releaseBlockCore_mem (s : State) : (releaseBlockCore s).mem = s.mem := rfl
@[simp] theorem releaseBlockCore_host (s : State) : (releaseBlockCore s).host = s.host := rfl
@[simp] theorem releaseBlockCore_resp (s : State) : (releaseBlockCore s).resp = s.resp := rfl
@[simp] theorem releaseBlockCore_seqRunning (s : State) : (releaseBlockCore s).seqRunning = s.seqRunning := rfl
@[simp] theorem releaseBlockCore_draws (s : State) : (releaseBlockCore s).draws = s.draws + 64 := rfl

@[simp] theorem block_k (s : State) : (block s).k = s.k := rfl
@[simp] theorem block_cn (s : State) : (block s).cn = s.cn := rfl
@[simp] theorem block_buf (s : State) : (block s).buf = s.buf := rfl
@[simp] theorem block_rem (s : State) : (block s).rem = s.rem := rfl
@[simp] theorem block_phase (s : State) : (block s).phase = s.phase := rfl
@[simp] theorem block_fault (s : State) : (block s).fault = s.fault := rfl
@[simp] theorem block_cause (s : State) : (block s).cause = s.cause := rfl
@[simp] theorem block_bc (s : State) : (block s).bc = runBlockCore { s.bc with inp := assembleInput s.k s.cn } := rfl
@[simp] theorem block_mem (s : State) : (block s).mem = s.mem := rfl
@[simp] theorem block_host (s : State) : (block s).host = s.host := rfl
@[simp] theorem block_resp (s : State) : (block s).resp = s.resp := rfl
@[simp] theorem block_seqRunning (s : State) : (block s).seqRunning = s.seqRunning := rfl
@[simp] theorem block_draws (s : State) : (block s).draws = s.draws := rfl

@[simp] theorem resetEvent_rem (s : State) : (resetEvent s).rem = 0 := rfl
@[simp] theorem resetEvent_phase (s : State) : (resetEvent s).phase = Phase.uninit := rfl
@[simp] theorem resetEvent_fault (s : State) : (resetEvent s).fault = false := rfl
@[simp] theorem resetEvent_cause (s : State) : (resetEvent s).cause = Cause.none := rfl
@[simp] theorem resetEvent_bc (s : State) : (resetEvent s).bc = freeBlockCore s.draws := rfl
@[simp] theorem resetEvent_mem (s : State) : (resetEvent s).mem = s.mem := rfl
@[simp] theorem resetEvent_host (s : State) : (resetEvent s).host = s.host := rfl
@[simp] theorem resetEvent_resp (s : State) : (resetEvent s).resp = s.resp := rfl
@[simp] theorem resetEvent_seqRunning (s : State) : (resetEvent s).seqRunning = s.seqRunning := rfl
@[simp] theorem resetEvent_draws (s : State) : (resetEvent s).draws = s.draws + 128 := rfl

@[simp] theorem finishMicroOp_k (s : State) : (finishMicroOp s).k = s.k := rfl
@[simp] theorem finishMicroOp_cn (s : State) : (finishMicroOp s).cn = s.cn := rfl
@[simp] theorem finishMicroOp_buf (s : State) : (finishMicroOp s).buf = s.buf := rfl
@[simp] theorem finishMicroOp_rem (s : State) : (finishMicroOp s).rem = s.rem := rfl
@[simp] theorem finishMicroOp_phase (s : State) : (finishMicroOp s).phase = s.phase := rfl
@[simp] theorem finishMicroOp_fault (s : State) : (finishMicroOp s).fault = s.fault := rfl
@[simp] theorem finishMicroOp_cause (s : State) : (finishMicroOp s).cause = s.cause := rfl
@[simp] theorem finishMicroOp_bc (s : State) : (finishMicroOp s).bc = s.bc.advance := rfl
@[simp] theorem finishMicroOp_mem (s : State) : (finishMicroOp s).mem = s.mem := rfl
@[simp] theorem finishMicroOp_host (s : State) : (finishMicroOp s).host = s.host := rfl
@[simp] theorem finishMicroOp_resp (s : State) : (finishMicroOp s).resp = s.resp := rfl
@[simp] theorem finishMicroOp_seqRunning (s : State) : (finishMicroOp s).seqRunning = decide (s.bc.upc.toNat + 1 < rom.length) := rfl
@[simp] theorem finishMicroOp_draws (s : State) : (finishMicroOp s).draws = s.draws := rfl

@[simp] theorem hostMemRead_k (a : Word) (s : State) : (hostMemRead a s).k = s.k := rfl
@[simp] theorem hostMemRead_cn (a : Word) (s : State) : (hostMemRead a s).cn = s.cn := rfl
@[simp] theorem hostMemRead_buf (a : Word) (s : State) : (hostMemRead a s).buf = s.buf := rfl
@[simp] theorem hostMemRead_rem (a : Word) (s : State) : (hostMemRead a s).rem = s.rem := rfl
@[simp] theorem hostMemRead_phase (a : Word) (s : State) : (hostMemRead a s).phase = s.phase := rfl
@[simp] theorem hostMemRead_fault (a : Word) (s : State) : (hostMemRead a s).fault = s.fault := rfl
@[simp] theorem hostMemRead_cause (a : Word) (s : State) : (hostMemRead a s).cause = s.cause := rfl
@[simp] theorem hostMemRead_bc (a : Word) (s : State) : (hostMemRead a s).bc = s.bc := rfl
@[simp] theorem hostMemRead_mem (a : Word) (s : State) : (hostMemRead a s).mem = s.mem := rfl
@[simp] theorem hostMemRead_host (a : Word) (s : State) : (hostMemRead a s).host = s.host := rfl
@[simp] theorem hostMemRead_resp (a : Word) (s : State) : (hostMemRead a s).resp = .byte (s.mem.read a.toNat) := rfl
@[simp] theorem hostMemRead_seqRunning (a : Word) (s : State) : (hostMemRead a s).seqRunning = s.seqRunning := rfl
@[simp] theorem hostMemRead_draws (a : Word) (s : State) : (hostMemRead a s).draws = s.draws := rfl

@[simp] theorem hostMemWrite_k (a : Word) (v : Byte) (s : State) : (hostMemWrite a v s).k = s.k := rfl
@[simp] theorem hostMemWrite_cn (a : Word) (v : Byte) (s : State) : (hostMemWrite a v s).cn = s.cn := rfl
@[simp] theorem hostMemWrite_buf (a : Word) (v : Byte) (s : State) : (hostMemWrite a v s).buf = s.buf := rfl
@[simp] theorem hostMemWrite_rem (a : Word) (v : Byte) (s : State) : (hostMemWrite a v s).rem = s.rem := rfl
@[simp] theorem hostMemWrite_phase (a : Word) (v : Byte) (s : State) : (hostMemWrite a v s).phase = s.phase := rfl
@[simp] theorem hostMemWrite_fault (a : Word) (v : Byte) (s : State) : (hostMemWrite a v s).fault = s.fault := rfl
@[simp] theorem hostMemWrite_cause (a : Word) (v : Byte) (s : State) : (hostMemWrite a v s).cause = s.cause := rfl
@[simp] theorem hostMemWrite_bc (a : Word) (v : Byte) (s : State) : (hostMemWrite a v s).bc = s.bc := rfl
@[simp] theorem hostMemWrite_mem (a : Word) (v : Byte) (s : State) : (hostMemWrite a v s).mem = s.mem.write a.toNat v := rfl
@[simp] theorem hostMemWrite_host (a : Word) (v : Byte) (s : State) : (hostMemWrite a v s).host = s.host := rfl
@[simp] theorem hostMemWrite_resp (a : Word) (v : Byte) (s : State) : (hostMemWrite a v s).resp = s.resp := rfl
@[simp] theorem hostMemWrite_seqRunning (a : Word) (v : Byte) (s : State) : (hostMemWrite a v s).seqRunning = s.seqRunning := rfl
@[simp] theorem hostMemWrite_draws (a : Word) (v : Byte) (s : State) : (hostMemWrite a v s).draws = s.draws := rfl

@[simp] theorem BlockCore.ldx_inp (b : BlockCore) : b.ldx.inp = b.inp := rfl
@[simp] theorem BlockCore.ldx_x (b : BlockCore) : b.ldx.x = b.inp := rfl
@[simp] theorem BlockCore.ldx_out (b : BlockCore) : b.ldx.out = b.out := rfl
@[simp] theorem BlockCore.ldx_upc (b : BlockCore) : b.ldx.upc = b.upc := rfl

@[simp] theorem BlockCore.ffw_inp (b : BlockCore) : b.ffw.inp = b.inp := rfl
@[simp] theorem BlockCore.ffw_x (b : BlockCore) : b.ffw.x = addWords b.x b.inp := rfl
@[simp] theorem BlockCore.ffw_out (b : BlockCore) : b.ffw.out = b.out := rfl
@[simp] theorem BlockCore.ffw_upc (b : BlockCore) : b.ffw.upc = b.upc := rfl

@[simp] theorem BlockCore.ser_inp (b : BlockCore) : b.ser.inp = b.inp := rfl
@[simp] theorem BlockCore.ser_x (b : BlockCore) : b.ser.x = b.x := rfl
@[simp] theorem BlockCore.ser_out (b : BlockCore) : b.ser.out = serialise b.x := rfl
@[simp] theorem BlockCore.ser_upc (b : BlockCore) : b.ser.upc = b.upc := rfl

@[simp] theorem BlockCore.advance_inp (b : BlockCore) : b.advance.inp = b.inp := rfl
@[simp] theorem BlockCore.advance_x (b : BlockCore) : b.advance.x = b.x := rfl
@[simp] theorem BlockCore.advance_out (b : BlockCore) : b.advance.out = b.out := rfl
@[simp] theorem BlockCore.advance_upc (b : BlockCore) : b.advance.upc = b.upc + 1 := rfl

@[simp] theorem BlockCore.qr_inp (a b c d : Fin 16) (r : BlockCore) : (BlockCore.qr a b c d r).inp = r.inp := rfl
@[simp] theorem BlockCore.qr_x (a b c d : Fin 16) (r : BlockCore) : (BlockCore.qr a b c d r).x = quarterRound a b c d r.x := rfl
@[simp] theorem BlockCore.qr_out (a b c d : Fin 16) (r : BlockCore) : (BlockCore.qr a b c d r).out = r.out := rfl
@[simp] theorem BlockCore.qr_upc (a b c d : Fin 16) (r : BlockCore) : (BlockCore.qr a b c d r).upc = r.upc := rfl

end Sys2Proof.Machine
end

