-- ==== Sys2Proof/Laws/Memory.lean ====
section
/-! SUPPORT. The laws of data memory: read after write, the canonical form is kept, and a canonical memory is known by its
bytes. Then the byte run of PROCESS: which bytes it writes and with what. -/

namespace Sys2Proof.Machine

theorem Memory.read_cons (b : Nat) (v : Byte) (m : Memory) (a : Nat) :
    Memory.read ((b, v) :: m) a = if b = a then v else m.read a := rfl

theorem Memory.read_put_same (m : Memory) (a : Nat) (v : Byte) (h : m.read a = Config.unlistedByte) :
    (Memory.put a v m).read a = v := by
  unfold Memory.put
  split
  · simp_all
  · simp [Memory.read_cons]

theorem Memory.read_put_other (m : Memory) (a b : Nat) (v : Byte) (h : b ≠ a) :
    (Memory.put a v m).read b = m.read b := by
  unfold Memory.put
  split
  · rfl
  · simp [Memory.read_cons, h.symm]

/-- A write changes no other address (R53). -/
theorem Memory.read_write_other (m : Memory) (a b : Nat) (v : Byte) (h : b ≠ a) :
    (m.write a v).read b = m.read b := by
  induction m with
  | nil => exact Memory.read_put_other [] a b v h
  | cons c rest ih =>
    obtain ⟨k, w⟩ := c
    unfold Memory.write
    split
    · exact Memory.read_put_other _ a b v h
    · split
      · next hk =>
        subst hk
        rw [Memory.read_put_other _ _ _ _ h, Memory.read_cons, if_neg h.symm]
      · simp [Memory.read_cons, ih]

theorem Memory.wfFrom_cons (lo a : Nat) (v : Byte) (m : Memory) :
    Memory.wfFrom lo ((a, v) :: m) = true ↔
      lo ≤ a ∧ a < Config.addressTop ∧ v ≠ Config.unlistedByte ∧ Memory.wfFrom (a + 1) m = true := by
  simp [Memory.wfFrom, and_assoc]

theorem Memory.wfFrom_mono {lo lo' : Nat} (m : Memory) (h : lo' ≤ lo) (hm : Memory.wfFrom lo m = true) :
    Memory.wfFrom lo' m = true := by
  cases m with
  | nil => rfl
  | cons c rest =>
    rw [Memory.wfFrom_cons] at hm ⊢
    exact ⟨by omega, hm.2⟩

/-- Below the first listed address a canonical memory lists nothing. -/
theorem Memory.read_below {lo a : Nat} (m : Memory) (hm : Memory.wfFrom lo m = true) (h : a < lo) :
    m.read a = Config.unlistedByte := by
  induction m generalizing lo with
  | nil => rfl
  | cons c rest ih =>
    rw [Memory.wfFrom_cons] at hm
    rw [Memory.read_cons, if_neg (by omega), ih hm.2.2.2 (by omega)]

theorem Memory.read_write_same_from {lo a : Nat} (m : Memory) (v : Byte) (hm : Memory.wfFrom lo m = true) :
    (m.write a v).read a = v := by
  induction m generalizing lo with
  | nil => exact Memory.read_put_same [] a v rfl
  | cons c rest ih =>
    have h := (Memory.wfFrom_cons ..).1 hm
    unfold Memory.write
    split
    · next ha =>
      exact Memory.read_put_same _ a v (Memory.read_below _ ((Memory.wfFrom_cons ..).2 ⟨le_refl _, h.2⟩) ha)
    · split
      · exact Memory.read_put_same _ a v (Memory.read_below _ h.2.2.2 (by omega))
      · rw [Memory.read_cons, if_neg (by omega), ih h.2.2.2]

/-- A read returns the byte last written (R53), in a canonical memory. -/
theorem Memory.read_write_same (m : Memory) (a : Nat) (v : Byte) (hm : m.wf = true) : (m.write a v).read a = v :=
  Memory.read_write_same_from m v hm

theorem Memory.wfFrom_put {lo a : Nat} (m : Memory) (v : Byte) (ha : lo ≤ a) (htop : a < Config.addressTop)
    (hm : Memory.wfFrom (a + 1) m = true) : Memory.wfFrom lo (Memory.put a v m) = true := by
  unfold Memory.put
  split
  · exact Memory.wfFrom_mono m (by omega) hm
  · next hv => exact (Memory.wfFrom_cons ..).2 ⟨ha, htop, hv, hm⟩

theorem Memory.wfFrom_write {lo a : Nat} (m : Memory) (v : Byte) (ha : lo ≤ a) (htop : a < Config.addressTop)
    (hm : Memory.wfFrom lo m = true) : Memory.wfFrom lo (m.write a v) = true := by
  induction m generalizing lo with
  | nil => exact Memory.wfFrom_put [] v ha htop rfl
  | cons c rest ih =>
    have h := (Memory.wfFrom_cons ..).1 hm
    unfold Memory.write
    split
    · next hlt => exact Memory.wfFrom_put _ v ha htop ((Memory.wfFrom_cons ..).2 ⟨hlt, h.2⟩)
    · split
      · next heq => exact Memory.wfFrom_put _ v ha htop (heq ▸ h.2.2.2)
      · exact (Memory.wfFrom_cons ..).2 ⟨h.1, h.2.1, h.2.2.1, ih (by omega) h.2.2.2⟩

/-- A write inside the space keeps the canonical form. -/
theorem Memory.wf_write (m : Memory) (a : Nat) (v : Byte) (htop : a < Config.addressTop) (hm : m.wf = true) :
    (m.write a v).wf = true :=
  Memory.wfFrom_write m v (Nat.zero_le a) htop hm

theorem Memory.ext_from {lo : Nat} (m m' : Memory) (hm : Memory.wfFrom lo m = true) (hm' : Memory.wfFrom lo m' = true)
    (h : ∀ a, m.read a = m'.read a) : m = m' := by
  induction m generalizing lo m' with
  | nil =>
    cases m' with
    | nil => rfl
    | cons c rest =>
      have hc := (Memory.wfFrom_cons ..).1 hm'
      exact absurd (h c.1).symm (by simp [Memory.read, hc.2.2.1])
  | cons c rest ih =>
    have hc := (Memory.wfFrom_cons ..).1 hm
    cases m' with
    | nil => exact absurd (h c.1) (by simp [Memory.read, hc.2.2.1])
    | cons c' rest' =>
      have hc' := (Memory.wfFrom_cons ..).1 hm'
      have hkey : c.1 = c'.1 := by
        rcases Nat.lt_trichotomy c.1 c'.1 with hlt | heq | hgt
        · have := h c.1
          rw [Memory.read_cons, if_pos rfl, Memory.read_cons, if_neg (by omega),
            Memory.read_below _ hc'.2.2.2 (by omega)] at this
          exact absurd this hc.2.2.1
        · exact heq
        · have := h c'.1
          rw [Memory.read_cons, if_neg (by omega), Memory.read_below _ hc.2.2.2 (by omega), Memory.read_cons,
            if_pos rfl] at this
          exact absurd this.symm hc'.2.2.1
      have hval : c.2 = c'.2 := by
        have := h c.1
        rwa [Memory.read_cons, if_pos rfl, Memory.read_cons, if_pos hkey.symm] at this
      have hrest : rest = rest' := by
        refine ih rest' hc.2.2.2 (hkey ▸ hc'.2.2.2) fun a => ?_
        by_cases ha : c.1 = a
        · rw [Memory.read_below _ hc.2.2.2 (by omega), Memory.read_below _ hc'.2.2.2 (by omega)]
        · have := h a
          rwa [Memory.read_cons, if_neg ha, Memory.read_cons, if_neg (hkey ▸ ha)] at this
      rw [hrest, Prod.ext hkey hval]

/-- Two canonical memories that read alike everywhere are the same data. -/
theorem Memory.ext (m m' : Memory) (hm : m.wf = true) (hm' : m'.wf = true) (h : ∀ a, m.read a = m'.read a) : m = m' :=
  Memory.ext_from m m' hm hm' h

/-- The byte run writes only the destination bytes. -/
theorem xorRun_read_outside (ks : List Byte) (src dst a : Nat) (m : Memory) (h : a < dst ∨ dst + ks.length ≤ a) :
    (xorRun src dst ks m).read a = m.read a := by
  induction ks generalizing src dst m with
  | nil => rfl
  | cons k rest ih =>
    simp only [List.length_cons] at h
    rw [xorRun, ih (src + 1) (dst + 1) _ (by omega), Memory.read_write_other _ _ _ _ (by omega)]

/-- The byte run keeps the canonical form when the destination lies inside the space. -/
theorem xorRun_wf (ks : List Byte) (src dst : Nat) (m : Memory) (htop : dst + ks.length ≤ Config.addressTop)
    (hm : m.wf = true) : (xorRun src dst ks m).wf = true := by
  induction ks generalizing src dst m with
  | nil => exact hm
  | cons k rest ih =>
    simp only [List.length_cons] at htop
    exact ih (src + 1) (dst + 1) _ (by omega) (Memory.wf_write _ _ _ (by omega) hm)

/-- Each destination byte is the source byte of the same index xor the keystream byte, when the ranges are equal or
disjoint (spec/20_memory.md R57, R67). -/
theorem xorRun_read_inside (ks : List Byte) (src dst j : Nat) (m : Memory) (hj : j < ks.length)
    (hranges : src = dst ∨ src + ks.length ≤ dst ∨ dst + ks.length ≤ src)
    (htop : dst + ks.length ≤ Config.addressTop) (hm : m.wf = true) :
    (xorRun src dst ks m).read (dst + j) = m.read (src + j) ^^^ ks[j] := by
  induction ks generalizing src dst j m with
  | nil => exact absurd hj (by simp)
  | cons k rest ih =>
    simp only [List.length_cons] at hj hranges htop
    have hw := Memory.wf_write m dst (m.read src ^^^ k) (by omega) hm
    rw [xorRun]
    cases j with
    | zero =>
      rw [xorRun_read_outside _ _ _ _ _ (by omega)]
      exact Memory.read_write_same _ _ _ hm
    | succ j =>
      have := ih (src + 1) (dst + 1) j _ (by omega) (by omega) (by omega) hw
      rw [show dst + (j + 1) = dst + 1 + j from by omega, this, Memory.read_write_other _ _ _ _ (by omega)]
      simp [show src + 1 + j = src + (j + 1) from by omega]

/-- A byte run is its first part, then its second from where the first stopped. -/
theorem xorRun_append (ks ks' : List Byte) (src dst : Nat) (m : Memory) :
    xorRun src dst (ks ++ ks') m = xorRun (src + ks.length) (dst + ks.length) ks' (xorRun src dst ks m) := by
  induction ks generalizing src dst m with
  | nil => rfl
  | cons k rest ih =>
    simp only [List.cons_append, xorRun, List.length_cons, ih]
    congr 1 <;> omega

end Sys2Proof.Machine
end

