-- ==== Sys2Proof/Laws/StreamEngine.lean ====
section
/-! SUPPORT. What each step of PROCESS can do, said once: the fields it leaves alone, the counter words it leaves, and its
effect on memory as one byte run of a list of keystream bytes. -/

namespace Sys2Proof.Machine

/-- The counter words after `n` increments. -/
def incrTimes : Nat → Vector Word 4 → Vector Word 4
  | 0, cn => cn
  | n + 1, cn => incrTimes n (incrCn cn)

/-- The bytes OUT holds after BLOCK: a function of K and CN and of nothing else, once the Block Core's result is known to
depend on IN alone. -/
def blockBytes (bc : BlockCore) (k : Vector Word 8) (cn : Vector Word 4) : List Byte :=
  (runBlockCore { bc with inp := assembleInput k cn }).out.toList

/-- The state of the Block Core after `n` whole blocks. -/
def blocksCore : Nat → BlockCore → Vector Word 8 → Vector Word 4 → BlockCore
  | 0, bc, _, _ => bc
  | n + 1, bc, k, cn => blocksCore n (runBlockCore { bc with inp := assembleInput k cn }) k (incrCn cn)

/-- The keystream of `n` whole blocks. -/
def blocksBytes : Nat → BlockCore → Vector Word 8 → Vector Word 4 → List Byte
  | 0, _, _, _ => []
  | n + 1, bc, k, cn =>
    blockBytes bc k cn ++ blocksBytes n (runBlockCore { bc with inp := assembleInput k cn }) k (incrCn cn)

/-- The counter words after the drain step. -/
def drainCn (s : State) (len : Nat) : Vector Word 4 := if drained s.rem.toNat len then incrCn s.cn else s.cn

/-- The keystream bytes a PROCESS of `len` bytes uses, in order. -/
def processBytes (s : State) (len : Nat) : List Byte :=
  let rest := len - drainCount s len
  drainBytes s len ++
    (blocksBytes (rest / 64) s.bc s.k (drainCn s len) ++
      (blockBytes (blocksCore (rest / 64) s.bc s.k (drainCn s len)) s.k
        (incrTimes (rest / 64) (drainCn s len))).take (rest % 64))

/-- The increment writes the first two counter words only. -/
@[simp] theorem incrCn_2 (cn : Vector Word 4) : (incrCn cn)[2] = cn[2] := by
  unfold incrCn
  split <;> simp

@[simp] theorem incrCn_3 (cn : Vector Word 4) : (incrCn cn)[3] = cn[3] := by
  unfold incrCn
  split <;> simp

@[simp] theorem incrTimes_2 (n : Nat) (cn : Vector Word 4) : (incrTimes n cn)[2] = cn[2] := by
  induction n generalizing cn with
  | zero => rfl
  | succ n ih => rw [incrTimes, ih, incrCn_2]

@[simp] theorem incrTimes_3 (n : Nat) (cn : Vector Word 4) : (incrTimes n cn)[3] = cn[3] := by
  induction n generalizing cn with
  | zero => rfl
  | succ n ih => rw [incrTimes, ih, incrCn_3]

@[simp] theorem blockBytes_length (bc : BlockCore) (k : Vector Word 8) (cn : Vector Word 4) :
    (blockBytes bc k cn).length = 64 := by
  simp [blockBytes]

@[simp] theorem blocksBytes_length (n : Nat) (bc : BlockCore) (k : Vector Word 8) (cn : Vector Word 4) :
    (blocksBytes n bc k cn).length = 64 * n := by
  induction n generalizing bc cn with
  | zero => rfl
  | succ n ih =>
    simp only [blocksBytes, List.length_append, blockBytes_length, ih]
    omega

theorem drainCount_le_rem (s : State) (len : Nat) : drainCount s len ≤ s.rem.toNat := Nat.min_le_right ..

theorem drainCount_le_len (s : State) (len : Nat) : drainCount s len ≤ len := Nat.min_le_left ..

@[simp] theorem drainBytes_length (s : State) (len : Nat) : (drainBytes s len).length = drainCount s len := by
  have h := drainCount_le_rem s len
  have h' : s.rem.toNat < 64 := s.rem.isLt
  simp only [drainBytes, List.length_take, List.length_drop, Vector.length_toList]
  omega

/-- A PROCESS uses one keystream byte for each of its bytes. -/
@[simp] theorem processBytes_length (s : State) (len : Nat) : (processBytes s len).length = len := by
  have h := drainCount_le_len s len
  simp only [processBytes, List.length_append, drainBytes_length, blocksBytes_length, List.length_take,
    blockBytes_length]
  omega

/-! ### The drain step (R151) -/

theorem drain_rem (src dst len : Nat) (s : State) :
    (drain src dst len s).rem = s.rem - BitVec.ofNat 6 (drainCount s len) := by
  unfold drain
  split
  · next h => simp [drainCount, h]
  · unfold incrIfDrained
    split <;> rfl

theorem drain_rem_toNat (src dst len : Nat) (s : State) :
    (drain src dst len s).rem.toNat = s.rem.toNat - drainCount s len := by
  have h := drainCount_le_rem s len
  have h' : s.rem.toNat < 64 := s.rem.isLt
  rw [drain_rem, BitVec.toNat_sub, BitVec.toNat_ofNat]
  omega

theorem drain_mem (src dst len : Nat) (s : State) :
    (drain src dst len s).mem = xorRun src dst (drainBytes s len) s.mem := by
  unfold drain
  split
  · next h => simp [drainBytes, drainCount, h, xorRun]
  · unfold incrIfDrained
    split <;> rfl

theorem drain_cn (src dst len : Nat) (s : State) : (drain src dst len s).cn = drainCn s len := by
  have hle := drainCount_le_rem s len
  have hlt : s.rem.toNat < 64 := s.rem.isLt
  have hmin : drainCount s len = min len s.rem.toNat := rfl
  have hzero : (s.rem - BitVec.ofNat 6 (drainCount s len) = 0) ↔ s.rem.toNat = drainCount s len := by
    rw [← BitVec.toNat_inj, BitVec.toNat_sub, BitVec.toNat_ofNat]
    simp only [BitVec.ofNat_eq_ofNat, BitVec.toNat_ofNat]
    omega
  unfold drain drainCn drained incrIfDrained
  by_cases h : s.rem = 0
  · simp [h]
  · have hpos : s.rem.toNat ≠ 0 := fun h0 => h (BitVec.eq_of_toNat_eq h0)
    by_cases hd : s.rem.toNat ≤ len
    · have hz := hzero.2 (by omega)
      rw [if_neg h, if_pos hz]
      simp [hd, Nat.pos_of_ne_zero hpos]
    · have hz : ¬ (s.rem - BitVec.ofNat 6 (drainCount s len) = 0) := fun h0 => by have := hzero.1 h0; omega
      rw [if_neg h, if_neg hz]
      simp [hd]

/-- The drain step leaves everything but memory, REM and the counter words alone. -/
theorem drain_frame (src dst len : Nat) (s : State) :
    drain src dst len s =
      { s with
        mem := xorRun src dst (drainBytes s len) s.mem
        rem := s.rem - BitVec.ofNat 6 (drainCount s len)
        cn := drainCn s len } := by
  have hm := drain_mem src dst len s
  have hr := drain_rem src dst len s
  have hc := drain_cn src dst len s
  have hrest : drain src dst len s =
      { s with
        mem := (drain src dst len s).mem
        rem := (drain src dst len s).rem
        cn := (drain src dst len s).cn } := by
    unfold drain
    split
    · rfl
    · unfold incrIfDrained
      split <;> rfl
  rw [hrest, hm, hr, hc]

/-! ### The whole-block step (R152) -/

/-- `n` whole blocks: memory takes their keystream, the counter advances `n` times, nothing else but the Block Core's
registers changes. -/
theorem blocks_frame (n src dst : Nat) (s : State) :
    blocks n src dst s =
      { s with
        mem := xorRun src dst (blocksBytes n s.bc s.k s.cn) s.mem
        cn := incrTimes n s.cn
        bc := blocksCore n s.bc s.k s.cn } := by
  induction n generalizing src dst s with
  | zero => rfl
  | succ n ih =>
    rw [blocks, ih, blocksBytes, xorRun_append, blockBytes_length]
    rfl

/-! ### The tail step (R153) -/

/-- The tail step of `r` bytes, 0 to 63. -/
theorem tail_frame (src dst r : Nat) (s : State) :
    tail src dst r s =
      { s with
        mem := xorRun src dst ((blockBytes s.bc s.k s.cn).take r) s.mem
        buf := if r = 0 then s.buf else (block s).bc.out
        rem := if r = 0 then s.rem else BitVec.ofNat 6 (64 - r)
        bc := if r = 0 then s.bc else (block s).bc } := by
  unfold tail
  split
  · next h => simp [h, xorRun]
  · rfl

/-! ### The whole of PROCESS (R150) -/

/-- A PROCESS's effect on memory is one byte run of its keystream bytes, from SRC to DST. -/
theorem processRun_mem (src dst len : Nat) (s : State) :
    (processRun src dst len s).mem = xorRun src dst (processBytes s len) s.mem := by
  unfold processRun processBytes
  simp only [releaseBlockCore_mem, tail_frame, blocks_frame, drain_frame, xorRun_append, drainBytes_length,
    blocksBytes_length, Nat.add_assoc]

/-- The counter words after a PROCESS. -/
theorem processRun_cn (src dst len : Nat) (s : State) :
    (processRun src dst len s).cn = incrTimes ((len - drainCount s len) / 64) (drainCn s len) := by
  unfold processRun
  simp only [releaseBlockCore_cn, tail_frame, blocks_frame, drain_frame]

/-- BUF after a PROCESS: the block of the counter then, where a tail was served; otherwise as before. -/
theorem processRun_buf (src dst len : Nat) (s : State) :
    (processRun src dst len s).buf.toList =
      if (len - drainCount s len) % 64 = 0 then s.buf.toList
      else
        blockBytes (blocksCore ((len - drainCount s len) / 64) s.bc s.k (drainCn s len)) s.k
          (incrTimes ((len - drainCount s len) / 64) (drainCn s len)) := by
  unfold processRun
  simp only [releaseBlockCore_buf, tail_frame, blocks_frame, drain_frame]
  split <;> rfl

/-- REM after a PROCESS. -/
theorem processRun_rem (src dst len : Nat) (s : State) :
    (processRun src dst len s).rem =
      if (len - drainCount s len) % 64 = 0 then s.rem - BitVec.ofNat 6 (drainCount s len)
      else BitVec.ofNat 6 (64 - (len - drainCount s len) % 64) := by
  unfold processRun
  simp only [releaseBlockCore_rem, tail_frame, blocks_frame, drain_frame]

/-- What a PROCESS leaves alone, and the phase it ends in. -/
theorem processRun_frame (src dst len : Nat) (s : State) :
    processRun src dst len s =
      { s with
        mem := (processRun src dst len s).mem
        cn := (processRun src dst len s).cn
        buf := (processRun src dst len s).buf
        rem := (processRun src dst len s).rem
        phase := .streaming
        bc := freeBlockCore s.draws
        draws := s.draws + 64 } := by
  unfold processRun
  simp only [releaseBlockCore, tail_frame, blocks_frame, drain_frame]

/-! ### The outcomes of the two commands -/

/-- Every way INIT can end: dropped, faulted, or done (R141, R188). -/
theorem execInit_cases (keyptr ncptr : Nat) (s : State) :
    (s.fault = true ∧ execInit keyptr ncptr s = .next s) ∨
    (s.fault = false ∧ ∃ c, initFault keyptr ncptr = some c ∧ execInit keyptr ncptr s = .next (raiseFault c s)) ∨
    (s.fault = false ∧ initFault keyptr ncptr = none ∧
      execInit keyptr ncptr s =
        .next { s with k := loadWords 8 s.mem keyptr, cn := loadWords 4 s.mem ncptr, rem := 0, phase := .fresh }) := by
  unfold execInit dropIfFaulted
  cases s.fault <;> cases initFault keyptr ncptr <;> simp

/-- Every way PROCESS can end: dropped, faulted, or done (R150, R188). -/
theorem execProcess_cases (src dst len : Nat) (s : State) :
    (s.fault = true ∧ execProcess src dst len s = .next s) ∨
    (s.fault = false ∧ ∃ c, processFault src dst len s = some c ∧ execProcess src dst len s = .next (raiseFault c s)) ∨
    (s.fault = false ∧ processFault src dst len s = none ∧
      execProcess src dst len s = .next (processRun src dst len s)) := by
  unfold execProcess dropIfFaulted
  cases s.fault <;> cases processFault src dst len s <;> simp

end Sys2Proof.Machine
end

