-- ==== Sys2Proof/Laws/PerInstr.lean ====
section
/-! SUPPORT. One fact for every instruction: the word it encodes to selects its row of spec/opcode_table.json (D and mask =
match, spec/30_encoding.md R82). -/

namespace Sys2Proof.Laws.RowMatch

/-- The code selects the instruction's row: the masks and matches of R83, R84, R91 and R93. -/
def selects : Instr → Code → Bool
  | .init _ _, .command d => d &&& 0xFFFFFFFF_00000000_00000000_FFFFFFFF = 0x00000000_00000000_00000000_00000001
  | .process _ _ _, .command d => d &&& 0x00000000_00000000_00000000_FFFFFFFF = 0x00000000_00000000_00000000_00000002
  | .ldx, .micro w => w &&& 0xFFFFF = 0x10000
  | .qrCol0, .micro w => w &&& 0xFFFFF = 0x2048C
  | .qrCol1, .micro w => w &&& 0xFFFFF = 0x2159D
  | .qrCol2, .micro w => w &&& 0xFFFFF = 0x226AE
  | .qrCol3, .micro w => w &&& 0xFFFFF = 0x237BF
  | .qrDiag0, .micro w => w &&& 0xFFFFF = 0x205AF
  | .qrDiag1, .micro w => w &&& 0xFFFFF = 0x216BC
  | .qrDiag2, .micro w => w &&& 0xFFFFF = 0x2278D
  | .qrDiag3, .micro w => w &&& 0xFFFFF = 0x2349E
  | .ffw, .micro w => w &&& 0xFFFFF = 0x30000
  | .ser, .micro w => w &&& 0xFFFFF = 0x40000
  | _, _ => false

/-- A well-formed instruction's word selects its row. -/
def Statement (i : Instr) : Prop := i.wf = true → selects i (encode i) = true

/-- A descriptor under a mask of whole words. -/
theorem descriptor_mask (w0 w1 w2 w3 m0 m1 m2 m3 : Word) :
    descriptor w0 w1 w2 w3 &&& descriptor m0 m1 m2 m3 = descriptor (w0 &&& m0) (w1 &&& m1) (w2 &&& m2) (w3 &&& m3) := by
  unfold descriptor
  change (w3 ++ w2 ++ w1 ++ w0 : BitVec (32 + 32 + 32 + 32)) &&& (m3 ++ m2 ++ m1 ++ m0 : BitVec (32 + 32 + 32 + 32)) = _
  simp only [BitVec.and_append]

theorem init (keyptr ncptr : Nat) : Statement (.init keyptr ncptr) := by
  intro _
  simp only [selects, encode, decide_eq_true_eq]
  rw [show (0xFFFFFFFF_00000000_00000000_FFFFFFFF : BitVec 128) = descriptor 0xFFFFFFFF 0 0 0xFFFFFFFF from rfl,
    descriptor_mask]
  simp [descriptor]

theorem process (src dst len : Nat) : Statement (.process src dst len) := by
  intro _
  simp only [selects, encode, decide_eq_true_eq]
  rw [show (0x00000000_00000000_00000000_FFFFFFFF : BitVec 128) = descriptor 0xFFFFFFFF 0 0 0 from rfl,
    descriptor_mask]
  simp [descriptor]

theorem ldx : Statement .ldx := fun _ => rfl

theorem qrCol0 : Statement .qrCol0 := fun _ => rfl

theorem qrCol1 : Statement .qrCol1 := fun _ => rfl

theorem qrCol2 : Statement .qrCol2 := fun _ => rfl

theorem qrCol3 : Statement .qrCol3 := fun _ => rfl

theorem qrDiag0 : Statement .qrDiag0 := fun _ => rfl

theorem qrDiag1 : Statement .qrDiag1 := fun _ => rfl

theorem qrDiag2 : Statement .qrDiag2 := fun _ => rfl

theorem qrDiag3 : Statement .qrDiag3 := fun _ => rfl

theorem ffw : Statement .ffw := fun _ => rfl

theorem ser : Statement .ser := fun _ => rfl

end Sys2Proof.Laws.RowMatch
end

