-- ==== Sys2Proof/Laws/Step.lean ====
section
/-! SUPPORT. What one step can do, said once: the sequencer's turn, and each host interaction. -/

namespace Sys2Proof.Machine

/-- Which instructions are micro-ops. -/
def isMicro : Instr → Bool
  | .init _ _ => false
  | .process _ _ _ => false
  | .ldx => true
  | .qrCol0 => true
  | .qrCol1 => true
  | .qrCol2 => true
  | .qrCol3 => true
  | .qrDiag0 => true
  | .qrDiag1 => true
  | .qrDiag2 => true
  | .qrDiag3 => true
  | .ffw => true
  | .ser => true

/-- A micro-op answers a next state that differs in the Block Core's registers only (R110). -/
theorem exec_micro (i : Instr) (s : State) (h : isMicro i = true) :
    exec i s = .next { s with bc := microEffect i s.bc } := by
  cases i <;> first | rfl | simp [isMicro] at h

/-- A micro-op leaves IN and upc alone (R114 to R116, R118). -/
theorem microEffect_frame (i : Instr) (b : BlockCore) :
    (microEffect i b).inp = b.inp ∧ (microEffect i b).upc = b.upc := by
  cases i <;> exact ⟨rfl, rfl⟩

/-- The ROM's words: LDX, the eight of an iteration, FFW, SER (spec/30_encoding.md R92). -/
theorem mem_rom (w : BitVec 20) (h : w ∈ rom) :
    w = 0x10000 ∨ w ∈ iterationWords ∨ w = 0x30000 ∨ w = 0x40000 := by
  simpa [rom, List.mem_flatten, List.mem_replicate] using h

theorem rom_length : rom.length = 83 := by decide

/-- Every word of the ROM decodes to a micro-op (spec/30_encoding.md R94). -/
theorem rom_word_decodes (w : BitVec 20) (h : w ∈ rom) : ∃ i, decodeMicro w = .instr i ∧ isMicro i = true := by
  rcases mem_rom w h with rfl | hw | rfl | rfl
  · exact ⟨.ldx, rfl, rfl⟩
  · simp only [iterationWords, List.mem_cons, List.not_mem_nil, or_false] at hw
    rcases hw with rfl | rfl | rfl | rfl | rfl | rfl | rfl | rfl <;> exact ⟨_, rfl, rfl⟩
  · exact ⟨.ffw, rfl, rfl⟩
  · exact ⟨.ser, rfl, rfl⟩

/-- Every ROM entry decodes to a micro-op (spec/30_encoding.md R92, R94). -/
theorem rom_entry (n : Nat) (h : n ≤ 82) : ∃ w i, rom[n]? = some w ∧ decodeMicro w = .instr i ∧ isMicro i = true := by
  have hlt : n < rom.length := by
    rw [rom_length]
    omega
  obtain ⟨i, hi, hm⟩ := rom_word_decodes rom[n] (List.getElem_mem hlt)
  exact ⟨rom[n], i, List.getElem?_eq_getElem hlt, hi, hm⟩

/-- A decoded micro-op word is a micro-op. -/
theorem decodeMicro_isMicro (w : BitVec 20) (i : Instr) (h : decodeMicro w = .instr i) : isMicro i = true := by
  unfold decodeMicro plainMicro at h
  split at h
  · split at h <;> simp_all
    subst h
    rfl
  · split at h
    · split at h
      · next j hj =>
        have hall : ∀ p ∈ qrTuples, isMicro p.2 = true := by decide
        obtain ⟨l, l', hsplit, -⟩ := List.lookup_eq_some_iff.1 hj
        have := hall (uopIndices w, j) (by simp [hsplit])
        simp_all
      · simp_all
    · split at h
      · split at h <;> simp_all
        subst h
        rfl
      · split at h
        · split at h <;> simp_all
          subst h
          rfl
        · simp_all

/-- A decoded descriptor is a command. -/
theorem decodeCommand_cases (d : BitVec 128) (i : Instr) (h : decodeCommand d = .instr i) :
    i = .init (cmdA d) (cmdB d) ∨ i = .process (cmdA d) (cmdB d) (cmdL d) := by
  unfold decodeCommand at h
  split at h
  · simp_all
  · split at h
    · split at h <;> simp_all
    · split at h <;> simp_all

/-- The sequencer's turn at a ROM entry: the entry's effect, then the advance (spec/40_block_core.md R118). -/
theorem step_running (s : State) (hrun : s.seqRunning = true) (hupc : s.bc.upc.toNat ≤ 82) :
    ∃ w i, rom[s.bc.upc.toNat]? = some w ∧ decodeMicro w = .instr i ∧ isMicro i = true ∧
      step s = .next (finishMicroOp { s with bc := microEffect i s.bc }) := by
  obtain ⟨w, i, hw, hi, hm⟩ := rom_entry s.bc.upc.toNat hupc
  refine ⟨w, i, hw, hi, hm, ?_⟩
  unfold step microTurn
  simp only [hrun, if_true, hw, hi, exec_micro i s hm]

/-- With nothing left to do the engine waits. -/
theorem step_idle (s : State) (hrun : s.seqRunning = false) (hhost : s.host = []) : step s = .next s := by
  unfold step hostTurn
  simp [hrun, hhost]

/-- Between commands a step is the host's next interaction. -/
theorem step_host (s : State) (act : HostAct) (rest : List HostAct) (hrun : s.seqRunning = false)
    (hhost : s.host = act :: rest) : step s = hostStep act { s with host := rest } := by
  unfold step hostTurn
  simp [hrun, hhost]

/-- A read of CN[i] changes at most the response and the draw counter. -/
theorem counterAnswer_next (v : Word) (s : State) :
    ∃ r n, counterAnswer v s = .next { s with resp := .word r, draws := n } := by
  unfold counterAnswer statusAnswer
  split
  · exact ⟨_, _, rfl⟩
  · exact ⟨_, s.draws, rfl⟩

/-- A status read changes at most the response and the draw counter, or is refused (spec/10_state.md R32). -/
theorem statusRead_cases (width : AccessWidth) (offset : Nat) (s : State) :
    statusRead width offset s = .refused .statusAccess ∨
    ∃ r n, statusRead width offset s = .next { s with resp := .word r, draws := n } := by
  unfold statusRead
  cases width with
  | byte => exact .inl rfl
  | half => exact .inl rfl
  | word =>
    dsimp only
    split
    · exact .inr ⟨_, s.draws, rfl⟩
    · split
      · exact .inr (counterAnswer_next ..)
      · split
        · exact .inr (counterAnswer_next ..)
        · split
          · exact .inr (counterAnswer_next ..)
          · split
            · exact .inr (counterAnswer_next ..)
            · exact .inl rfl

end Sys2Proof.Machine
end

