-- ==== Sys2Proof/Tests/Slice0.lean ====
section
/-! SUPPORT. The model's own tests. First the well-formedness smoke test, the decoder on words written out from
spec/30_encoding.md, and single steps against the vectors of spec/95_test_vectors.md and
spec/96_test_vectors_engine.md (expected values copied from there, the vector named in each comment); then one named
witness for the hypotheses of each obligation that has any. -/

open Sys2Proof Sys2Proof.Machine

namespace Sys2Proof.Tests

/-! ### Helpers -/

/-- The outcome is a next state with the property. -/
def nextIs (o : Host.Outcome State Fault Refusal) (p : State → Bool) : Bool :=
  match o with
  | .next s => p s
  | .fault _ => false
  | .refused _ => false

/-- Bytes from an address on, as memory; zeros are not listed. -/
def bytesFrom : Nat → List Byte → Memory
  | _, [] => []
  | a, v :: rest => Memory.put a v (bytesFrom (a + 1) rest)

/-- The key bytes 00 01 ... 1f at 0x100, the layout of the vectors. -/
def keyMemory : Memory := bytesFrom 0x100 ((List.range 32).map (BitVec.ofNat 8))

/-- K of the key bytes 00 01 ... 1f (V15). -/
def vectorKey : Vector Word 8 :=
  #v[0x03020100, 0x07060504, 0x0b0a0908, 0x0f0e0d0c, 0x13121110, 0x17161514, 0x1b1a1918, 0x1f1e1d1c]

/-- An engine after INIT with that key and the given counter and nonce words. -/
def freshWith (cn : Vector Word 4) : State := { State.reset with k := vectorKey, cn := cn, phase := .fresh }

/-- The session "fresh" of V50 to V55: key 00 01 ... 1f, counter and nonce zero. -/
def fresh : State := freshWith #v[0, 0, 0, 0]

/-- That session with 14 unused bytes of its block in BUF. -/
def buffered : State :=
  { fresh with buf := permute (assembleInput fresh.k fresh.cn), rem := 14, phase := .streaming }

/-- A faulted engine. -/
def faulted : State := { fresh with fault := true, cause := .illegalCmd }

/-- A state whose host issues one descriptor next. -/
def issuing (s : State) (w0 w1 w2 w3 : Word) : State := { s with host := [.issue (descriptor w0 w1 w2 w3)] }

/-- A state with a full IN and the sequencer at its first micro-op. -/
def invoking : State := { State.reset with seqRunning := true }

/-- A state with X as given. -/
def withX (x : Vector Word 16) : State := { State.reset with bc := { State.reset.bc with x := x } }

/-- STATUS after a step that issues the descriptor from `s`. -/
def statusAfter (s : State) (w0 w1 w2 w3 : Word) (status : Word) : Bool :=
  nextIs (step (issuing s w0 w1 w2 w3)) fun t => statusWord t = status

/-- The sixteen input words of V10. -/
def v10Input : Vector Word 16 :=
  #v[0x61707865, 0x3320646e, 0x79622d32, 0x6b206574, 0x03020100, 0x07060504, 0x0b0a0908, 0x0f0e0d0c,
    0x13121110, 0x17161514, 0x1b1a1918, 0x1f1e1d1c, 0x00000001, 0x09000000, 0x4a000000, 0x00000000]

/-- X of V10 after upc 4. -/
def v10AfterColumns : Vector Word 16 :=
  #v[0xabbaa25c, 0x1efa51ea, 0x7354fbdf, 0x83d2dc69, 0x3a465196, 0x1c7e64f6, 0xb12fb628, 0xf05b6976,
    0x6b3ca454, 0x08eb14b1, 0xbf8a9ac9, 0xe444df3b, 0xdec62ed2, 0x8862cc77, 0x6e35b345, 0x52a647f1]

/-- X of V10 after upc 8. -/
def v10AfterDiagonals : Vector Word 16 :=
  #v[0xcd52e917, 0x85ab03b4, 0xb3457395, 0xf96de7dd, 0xc4b7cd22, 0x5c2e187a, 0xc95eb461, 0x316c801a,
    0x7bf7d740, 0x7eddd644, 0xf1a1bdf5, 0x761246ca, 0x6b0d58a3, 0x6798471a, 0xd737f167, 0xf173888d]

/-- X of V10 after upc 80. -/
def v10AfterRounds : Vector Word 16 :=
  #v[0x837778ab, 0xe238d763, 0xa67ae21e, 0x5950bb2f, 0xc4f2d0c7, 0xfc62bb2f, 0x8fa018fc, 0x3f5ec7b7,
    0x335271c2, 0xf29489f3, 0xeabda8fc, 0x82e46ebd, 0xd19c12b4, 0xb04e16de, 0x9e83d0cb, 0x4e3c50a2]

/-- X of V10 after upc 81. -/
def v10AfterFfw : Vector Word 16 :=
  #v[0xe4e7f110, 0x15593bd1, 0x1fdd0f50, 0xc47120a3, 0xc7f4d1c7, 0x0368c033, 0x9aaa2204, 0x4e6cd4c3,
    0x466482d2, 0x09aa9f07, 0x05d7c214, 0xa2028bd9, 0xd19c12b5, 0xb94e16de, 0xe883d0cb, 0x4e3c50a2]

/-- OUT of V10. -/
def v10Out : Vector Byte 64 :=
  #v[0x10, 0xf1, 0xe7, 0xe4, 0xd1, 0x3b, 0x59, 0x15, 0x50, 0x0f, 0xdd, 0x1f, 0xa3, 0x20, 0x71, 0xc4,
    0xc7, 0xd1, 0xf4, 0xc7, 0x33, 0xc0, 0x68, 0x03, 0x04, 0x22, 0xaa, 0x9a, 0xc3, 0xd4, 0x6c, 0x4e,
    0xd2, 0x82, 0x64, 0x46, 0x07, 0x9f, 0xaa, 0x09, 0x14, 0xc2, 0xd7, 0x05, 0xd9, 0x8b, 0x02, 0xa2,
    0xb5, 0x12, 0x9c, 0xd1, 0xde, 0x16, 0x4e, 0xb9, 0xcb, 0xd0, 0x83, 0xe8, 0xa2, 0x50, 0x3c, 0x4e]

/-! ### WellFormed: one ill-formed term for each check -/

theorem test_wf_init_keyptr : (Instr.init 0x100000000 0x200).wf = false := by decide
theorem test_wf_init_ncptr : (Instr.init 0x100 0x100000000).wf = false := by decide
theorem test_wf_process_src : (Instr.process 0x100000000 0x2000 1).wf = false := by decide
theorem test_wf_process_dst : (Instr.process 0x1000 0x100000000 1).wf = false := by decide
theorem test_wf_process_len : (Instr.process 0x1000 0x2000 0x100000000).wf = false := by decide
theorem test_wf_top : (Instr.process 0xFFFFFFFF 0xFFFFFFFF 0xFFFFFFFF).wf = true := by decide

/-! ### Decoding: words laid out field by field from spec/30_encoding.md sections 2 and 5 -/

-- R83: L, NCPTR, KEYPTR, RSV0, OP from the top bit down.
theorem test_decode_init :
    decodeTableWord 128 (0x00000000 * 2 ^ 96 + 0x89ABCDEF * 2 ^ 64 + 0x01234567 * 2 ^ 32 + 0x000000 * 2 ^ 8 + 0x01) =
      some (.init 0x01234567 0x89ABCDEF) := by decide
-- R84: LEN, DST, SRC, RSV0, OP from the top bit down.
theorem test_decode_process :
    decodeTableWord 128 (0xFEDCBA98 * 2 ^ 96 + 0x89ABCDEF * 2 ^ 64 + 0x01234567 * 2 ^ 32 + 0x000000 * 2 ^ 8 + 0x02) =
      some (.process 0x01234567 0x89ABCDEF 0xFEDCBA98) := by decide
-- R90, R91, R93: UOP, a, b, c, d, four bits each.
theorem test_decode_ldx : decodeTableWord 24 0b0001_0000_0000_0000_0000 = some .ldx := by decide
theorem test_decode_qr_0_4_8_12 : decodeTableWord 24 0b0010_0000_0100_1000_1100 = some .qrCol0 := by decide
theorem test_decode_qr_1_5_9_13 : decodeTableWord 24 0b0010_0001_0101_1001_1101 = some .qrCol1 := by decide
theorem test_decode_qr_2_6_10_14 : decodeTableWord 24 0b0010_0010_0110_1010_1110 = some .qrCol2 := by decide
theorem test_decode_qr_3_7_11_15 : decodeTableWord 24 0b0010_0011_0111_1011_1111 = some .qrCol3 := by decide
theorem test_decode_qr_0_5_10_15 : decodeTableWord 24 0b0010_0000_0101_1010_1111 = some .qrDiag0 := by decide
theorem test_decode_qr_1_6_11_12 : decodeTableWord 24 0b0010_0001_0110_1011_1100 = some .qrDiag1 := by decide
theorem test_decode_qr_2_7_8_13 : decodeTableWord 24 0b0010_0010_0111_1000_1101 = some .qrDiag2 := by decide
theorem test_decode_qr_3_4_9_14 : decodeTableWord 24 0b0010_0011_0100_1001_1110 = some .qrDiag3 := by decide
theorem test_decode_ffw : decodeTableWord 24 0b0011_0000_0000_0000_0000 = some .ffw := by decide
theorem test_decode_ser : decodeTableWord 24 0b0100_0000_0000_0000_0000 = some .ser := by decide
-- R94, R87: reserved encodings do not fall through to a neighbour.
theorem test_decode_reserved :
    decode (.micro 0x00000) = .rejected .reservedUop ∧ decode (.micro 0x10001) = .rejected .indexFields ∧
    decode (.micro 0x2048D) = .rejected .reservedTuple ∧ decode (.command 0x03) = .rejected .reservedOp ∧
    decode (.command 0x102) = .rejected .reservedBits ∧
    decode (.command (descriptor 1 0x100 0x200 1)) = .rejected .initLength := by decide

/-! ### Micro-ops: the stages of V10 -/

-- V10, upc 0.
theorem test_ldx :
    nextIs (exec .ldx { State.reset with bc := { State.reset.bc with inp := v10Input } }) (fun t => t.bc.x = v10Input) =
      true := by decide
-- V10, upc 1: the whole of X.
theorem test_qr_first :
    nextIs (exec .qrCol0 (withX v10Input)) (fun t => t.bc.x =
      #v[0xabbaa25c, 0x3320646e, 0x79622d32, 0x6b206574, 0x3a465196, 0x07060504, 0x0b0a0908, 0x0f0e0d0c,
        0x6b3ca454, 0x17161514, 0x1b1a1918, 0x1f1e1d1c, 0xdec62ed2, 0x09000000, 0x4a000000, 0x00000000]) = true := by
  decide
-- V10: each column micro-op alone gives its four words of X after upc 4 (the others are not its own).
theorem test_qr_col1 :
    nextIs (exec .qrCol1 (withX v10Input)) (fun t =>
      t.bc.x[1] = v10AfterColumns[1] ∧ t.bc.x[5] = v10AfterColumns[5] ∧ t.bc.x[9] = v10AfterColumns[9] ∧
      t.bc.x[13] = v10AfterColumns[13] ∧ t.bc.x[0] = v10Input[0]) = true := by decide
theorem test_qr_col2 :
    nextIs (exec .qrCol2 (withX v10Input)) (fun t =>
      t.bc.x[2] = v10AfterColumns[2] ∧ t.bc.x[6] = v10AfterColumns[6] ∧ t.bc.x[10] = v10AfterColumns[10] ∧
      t.bc.x[14] = v10AfterColumns[14] ∧ t.bc.x[0] = v10Input[0]) = true := by decide
theorem test_qr_col3 :
    nextIs (exec .qrCol3 (withX v10Input)) (fun t =>
      t.bc.x[3] = v10AfterColumns[3] ∧ t.bc.x[7] = v10AfterColumns[7] ∧ t.bc.x[11] = v10AfterColumns[11] ∧
      t.bc.x[15] = v10AfterColumns[15] ∧ t.bc.x[0] = v10Input[0]) = true := by decide
-- V10: each diagonal micro-op alone takes its four words from upc 4 to upc 8.
theorem test_qr_diag0 :
    nextIs (exec .qrDiag0 (withX v10AfterColumns)) (fun t =>
      t.bc.x[0] = v10AfterDiagonals[0] ∧ t.bc.x[5] = v10AfterDiagonals[5] ∧ t.bc.x[10] = v10AfterDiagonals[10] ∧
      t.bc.x[15] = v10AfterDiagonals[15] ∧ t.bc.x[1] = v10AfterColumns[1]) = true := by decide
theorem test_qr_diag1 :
    nextIs (exec .qrDiag1 (withX v10AfterColumns)) (fun t =>
      t.bc.x[1] = v10AfterDiagonals[1] ∧ t.bc.x[6] = v10AfterDiagonals[6] ∧ t.bc.x[11] = v10AfterDiagonals[11] ∧
      t.bc.x[12] = v10AfterDiagonals[12] ∧ t.bc.x[0] = v10AfterColumns[0]) = true := by decide
theorem test_qr_diag2 :
    nextIs (exec .qrDiag2 (withX v10AfterColumns)) (fun t =>
      t.bc.x[2] = v10AfterDiagonals[2] ∧ t.bc.x[7] = v10AfterDiagonals[7] ∧ t.bc.x[8] = v10AfterDiagonals[8] ∧
      t.bc.x[13] = v10AfterDiagonals[13] ∧ t.bc.x[0] = v10AfterColumns[0]) = true := by decide
theorem test_qr_diag3 :
    nextIs (exec .qrDiag3 (withX v10AfterColumns)) (fun t =>
      t.bc.x[3] = v10AfterDiagonals[3] ∧ t.bc.x[4] = v10AfterDiagonals[4] ∧ t.bc.x[9] = v10AfterDiagonals[9] ∧
      t.bc.x[14] = v10AfterDiagonals[14] ∧ t.bc.x[0] = v10AfterColumns[0]) = true := by decide
-- V10, upc 81.
theorem test_ffw :
    nextIs (exec .ffw { State.reset with bc := { State.reset.bc with inp := v10Input, x := v10AfterRounds } })
      (fun t => t.bc.x = v10AfterFfw ∧ t.bc.inp = v10Input) = true := by decide
-- V10, upc 82.
theorem test_ser : nextIs (exec .ser (withX v10AfterFfw)) (fun t => t.bc.out = v10Out) = true := by decide +kernel
-- V10 from end to end.
theorem test_permute : permute v10Input = v10Out := by decide +kernel

/-! ### INIT and PROCESS -/

-- V15.
theorem test_init :
    nextIs (step (issuing { State.reset with mem := keyMemory ++ bytesFrom 0x200 [1, 0, 0, 0, 0, 0, 0, 9, 0, 0, 0, 0x4a] }
      0x00000001 0x00000100 0x00000200 0x00000000)) (fun t =>
      t.k = vectorKey ∧ t.cn = #v[0x00000001, 0x09000000, 0x4a000000, 0x00000000] ∧ statusWord t = 0x00000001) = true := by
  decide
-- V16: the nonce and counter bytes are the key's bytes 16 to 31.
theorem test_init_overlapping :
    nextIs (step (issuing { State.reset with mem := keyMemory } 0x00000001 0x00000100 0x00000110 0x00000000)) (fun t =>
      t.k = vectorKey ∧ t.cn = #v[0x13121110, 0x17161514, 0x1b1a1918, 0x1f1e1d1c]) = true := by decide
-- V24c with V13 and KSB1 of V23 to V25: one whole block, then one tail byte.
theorem test_process_block_and_tail :
    nextIs (exec (.process 0x1000 0x2000 65) fresh) (fun t =>
      statusWord t = 0x00003F02 ∧ t.cn = #v[1, 0, 0, 0] ∧ t.mem.read 0x2000 = 0x39 ∧ t.mem.read 0x203F = 0x0c ∧
      t.mem.read 0x2040 = 0x18 ∧ t.mem.read 0x2041 = 0 ∧ t.buf[63] = 0xcd) = true := by decide +kernel
-- R151 with V13 in BUF (its bytes 50 and 51 are 35 and ea) and the carry of R146.
theorem test_process_drain :
    nextIs (exec (.process 0x100a 0x200a 14) { buffered with cn := #v[0xFFFFFFFF, 0x00000009, 0, 0], mem := [(0x100b, 0xFF)] })
      (fun t => statusWord t = 0x00000002 ∧ t.cn = #v[0, 0x0000000A, 0, 0] ∧ t.mem.read 0x200a = 0x35 ∧
        t.mem.read 0x200b = 0x15) = true := by decide +kernel

/-! ### Faults (V42, V50 to V56) -/

-- V50a to V50f.
theorem test_illegal_commands :
    statusAfter State.reset 0x00000000 0x00000000 0x00000000 0x00000000 0x00000014 = true ∧
    statusAfter fresh 0x00000003 0x00001000 0x00002000 0x00000004 0x00000015 = true ∧
    statusAfter fresh 0x00000101 0x00000100 0x00000200 0x00000000 0x00000015 = true ∧
    statusAfter fresh 0x80000002 0x00001000 0x00002000 0x00000004 0x00000015 = true ∧
    statusAfter State.reset 0x00000001 0x00000100 0x00000200 0x00000001 0x00000014 = true := by decide
-- V51a, V51b, V54b.
theorem test_not_init :
    statusAfter State.reset 0x00000002 0x00001000 0x00002000 0x00000004 0x00000024 = true ∧
    statusAfter State.reset 0x00000002 0x00001000 0x00002000 0x00000000 0x00000024 = true ∧
    statusAfter State.reset 0x00000002 0xFFFFFFFF 0x00002000 0x00000004 0x00000024 = true := by decide
-- V52a to V52d.
theorem test_addr_range_init :
    statusAfter State.reset 0x00000001 0xFFFFFFE0 0x00000200 0x00000000 0x00000001 = true ∧
    statusAfter State.reset 0x00000001 0xFFFFFFE1 0x00000200 0x00000000 0x00000034 = true ∧
    statusAfter State.reset 0x00000001 0x00000100 0xFFFFFFF0 0x00000000 0x00000001 = true ∧
    statusAfter State.reset 0x00000001 0x00000100 0xFFFFFFF1 0x00000000 0x00000034 = true := by decide
-- V52f to V52h, V54c.
theorem test_addr_range_process :
    statusAfter fresh 0x00000002 0xFFFFFFFD 0x00002000 0x00000004 0x00000035 = true ∧
    statusAfter fresh 0x00000002 0x00001000 0xFFFFFFFF 0x00000002 0x00000035 = true ∧
    statusAfter fresh 0x00000002 0xFFFFFFFF 0xFFFFFFFF 0x00000000 0x00000002 = true ∧
    statusAfter fresh 0x00000002 0xFFFFFFF0 0xFFFFFFF8 0x00000020 0x00000035 = true := by decide
-- V53a to V53f, V54d.
theorem test_overlap :
    statusAfter fresh 0x00000002 0x00001000 0x00001001 0x00000002 0x00000045 = true ∧
    statusAfter fresh 0x00000002 0x00001010 0x00001000 0x00000011 0x00000045 = true ∧
    statusAfter fresh 0x00000002 0x00001000 0x00001001 0x00000000 0x00000002 = true ∧
    statusAfter (freshWith #v[0xFFFFFFFF, 0xFFFFFFFF, 0, 0]) 0x00000002 0x00001000 0x00001001 0x00000040 0x00000045 =
      true := by decide
theorem test_no_overlap :
    statusAfter fresh 0x00000002 0x00001000 0x00001002 0x00000002 0x00003E02 = true ∧
    statusAfter fresh 0x00000002 0x00001010 0x00001000 0x00000010 0x00003002 = true ∧
    statusAfter fresh 0x00000002 0x00001000 0x00001000 0x00000010 0x00003002 = true := by decide
-- V42 S1, S2, S5.
theorem test_counter_limit :
    statusAfter (freshWith #v[0xFFFFFFFF, 0xFFFFFFFF, 0x11111111, 0x22222222])
      0x00000002 0x00001000 0x00002000 0x0000003F 0x00000102 = true ∧
    statusAfter (freshWith #v[0xFFFFFFFF, 0xFFFFFFFF, 0, 0])
      0x00000002 0x00001000 0x00002000 0x00000040 0x00000055 = true ∧
    statusAfter (freshWith #v[0xFFFFFFFE, 0xFFFFFFFF, 0, 0])
      0x00000002 0x00001000 0x00002000 0x00000080 0x00000055 = true := by decide
-- V56: an INIT while faulted is dropped; the reset event leaves STATUS = 0.
theorem test_sticky : statusAfter faulted 0x00000001 0x00000100 0x00000200 0x00000000 0x00000015 = true := by decide
theorem test_reset_event :
    nextIs (step { faulted with host := [.reset], mem := keyMemory }) (fun t =>
      statusWord t = 0x00000000 ∧ t.mem = keyMemory) = true := by decide

/-! ### The host's side -/

-- V15: CN1 at offset 0x08; R32: a halfword read is reserved.
theorem test_status_port :
    nextIs (step { freshWith #v[1, 0x09000000, 0x4a000000, 0] with host := [.statusRead .word 0x08] })
      (fun t => t.resp = .word 0x09000000) = true ∧
    step { fresh with host := [.statusRead .half 0x08] } = .refused .statusAccess := ⟨by decide, rfl⟩
-- Memory keeps its canonical form: writing the unlisted byte removes the entry, other writes sort in.
theorem test_memory_canonical :
    Memory.write (Memory.write (Memory.write [] 5 7) 3 9) 5 0 = [(3, 9)] ∧
    Memory.wf [(3, 9), (3, 8)] = false ∧ Memory.wf [(3, 0)] = false ∧ Memory.wf [(2 ^ 32, 1)] = false := by decide
-- A program runs from reset: placing each kind of word makes it the next step.
theorem test_first_step :
    nextIs (step (State.reset.withFetchWord 128 1)) (fun t => t.phase = .fresh) = true ∧
    nextIs (step (State.reset.withFetchWord 24 0x40000)) (fun t => t.bc.upc = 83 ∧ t.seqRunning = false) = true := by
  decide

/-! ### Witnesses: for each obligation with hypotheses, a state and operands that meet them -/

theorem witness_InitDescriptorRow :
    (0x00000000_FFFFFFFF_00000000_00000001 : BitVec 128) &&& 0xFFFFFFFF_00000000_00000000_FFFFFFFF =
      0x00000000_00000000_00000000_00000001 ∧
    decode (.command 0x00000000_FFFFFFFF_00000000_00000001) = .instr (.init 0 0xFFFFFFFF) := by decide

theorem witness_ProcessDescriptorRow :
    (0xFFFFFFFF_00000000_FFFFFFFF_00000002 : BitVec 128) &&& 0x00000000_00000000_00000000_FFFFFFFF =
      0x00000000_00000000_00000000_00000002 ∧
    decode (.command 0xFFFFFFFF_00000000_FFFFFFFF_00000002) = .instr (.process 0xFFFFFFFF 0 0xFFFFFFFF) := by decide

/-- The three cases of an illegal command: OP, RSV0, and L of an INIT. -/
theorem witness_IllegalCommandFaults :
    (issuing fresh 3 0 0 0).seqRunning = false ∧ (issuing fresh 3 0 0 0).fault = false ∧
    (issuing fresh 3 0 0 0).host = [.issue (descriptor 3 0 0 0)] ∧
    ((descriptor 3 0 0 0).toNat % 2 ^ 8 ≠ 0x01 ∧ (descriptor 3 0 0 0).toNat % 2 ^ 8 ≠ 0x02) ∧
    (descriptor 0x80000002 0 0 0).toNat / 2 ^ 8 % 2 ^ 24 ≠ 0 ∧
    ((descriptor 1 0 0 0x80000000).toNat % 2 ^ 8 = 0x01 ∧ (descriptor 1 0 0 0x80000000).toNat / 2 ^ 96 ≠ 0) := by decide

/-- A QR word with equal indices, and the reserved micro-operations beside the legal ones. -/
theorem witness_ReservedMicroWords :
    let legal : List (BitVec 20) :=
      [0x10000, 0x2048C, 0x2159D, 0x226AE, 0x237BF, 0x205AF, 0x216BC, 0x2278D, 0x2349E, 0x30000, 0x40000]
    0x20000 ∉ legal ∧ 0x00000 ∉ legal ∧ 0x50000 ∉ legal ∧ 0x1000F ∉ legal ∧ 0xFFFFF ∉ legal := by decide

theorem witness_DecodeOfEncode :
    (Instr.init 0xFFFFFFFF 0).wf = true ∧ (Instr.process 0 0xFFFFFFFF 0xFFFFFFFF).wf = true ∧ Instr.qrDiag3.wf = true := by
  decide

theorem witness_EncodeOfDecode :
    decode (.command 0xFFFFFFFF_00000000_FFFFFFFF_00000002) = .instr (.process 0xFFFFFFFF 0 0xFFFFFFFF) ∧
    decode (.micro 0x2349E) = .instr .qrDiag3 := by decide

theorem witness_LittleEndianConversion : (3 : Nat) ≤ 3 := by decide

theorem witness_RotationFormula :
    (0 < 1 ∧ 1 < 32) ∧ (0 < 31 ∧ 31 < 32) ∧ rotl32 0x80000001 31 = rotl32 0x80000001 31 := by decide

theorem witness_QuarterRoundFunction :
    ([0, 4, 8, 12] : List (Fin 16)).Nodup ∧ ([15, 0, 1, 14] : List (Fin 16)).Nodup ∧
    ∃ X : Vector Word 16, X[0] = 0x11111111 ∧ X[4] = 0x01020304 ∧ X[8] = 0x9b8d6f43 ∧ X[12] = 0x01234567 :=
  ⟨by decide, by decide, #v[0x11111111, 0, 0, 0, 0x01020304, 0, 0, 0, 0x9b8d6f43, 0, 0, 0, 0x01234567, 0, 0, 0],
    by decide⟩

theorem witness_QuarterRoundMicroOps :
    ((Vector.replicate 16 0 : Vector Word 16)[0] = 0 ∧ (Vector.replicate 16 0 : Vector Word 16)[15] = 0) ∧
    (withX v10Input).bc.x[0] = 0x61707865 ∧ (withX v10Input).bc.x[4] = 0x03020100 ∧
    (withX v10Input).bc.x[8] = 0x13121110 ∧ (withX v10Input).bc.x[12] = 0x00000001 := by decide

theorem witness_SerWritesLittleEndian : (15 : Nat) < 16 := by decide

theorem witness_RomListing : (9 : Nat) < 10 ∧ (7 : Nat) < 8 := by decide

theorem witness_MicroStepsComputePermute : invoking.seqRunning = true ∧ invoking.bc.upc = 0 := by decide

theorem witness_DisjointQuarterRoundsCommute :
    ([0, 4, 8, 12, 1, 5, 9, 13] : List (Fin 16)).Nodup ∧ ([3, 4, 9, 14, 0, 5, 10, 15] : List (Fin 16)).Nodup := by decide

/-- The four cases: both buffers ending at the top, each one byte past it, a faulted engine, a descriptor with OP 0x01. -/
theorem witness_InitLoadsContext :
    (fresh.fault = false ∧ 0xFFFFFFE0 + 32 ≤ 2 ^ 32 ∧ 0xFFFFFFF0 + 16 ≤ 2 ^ 32) ∧
    (0xFFFFFFE1 + 32 > 2 ^ 32 ∧ 0xFFFFFFF1 + 16 > 2 ^ 32) ∧ faulted.fault = true ∧
    ((descriptor 0x101 0 0 0).toNat % 2 ^ 8 = 0x01 ∧ (descriptor 0x101 0 0 0).toNat / 2 ^ 8 % 2 ^ 24 ≠ 0) ∧
    ((descriptor 1 0 0 1).toNat % 2 ^ 8 = 0x01 ∧ (descriptor 1 0 0 1).toNat / 2 ^ 96 ≠ 0) := by decide

/-- The last increment below 2^64, and a PROCESS that raises no fault. -/
theorem witness_CounterIncrement :
    ctr64 #v[0xFFFFFFFE, 0xFFFFFFFF, 0, 0] + 1 < 2 ^ 64 ∧ fresh.fault = false ∧
    exec (.process 0x1000 0x2000 64) fresh = .next (processRun 0x1000 0x2000 64 fresh) ∧
    (processRun 0x1000 0x2000 64 fresh).fault = false := ⟨by decide, rfl, rfl, rfl⟩

/-- The drain step with nothing buffered and with 14 bytes buffered, in place and at the top of memory. -/
theorem witness_DrainStep :
    (fresh.mem.wf = true ∧ EqualOrDisjoint 0 0xFFFFFFF2 14 ∧ 0xFFFFFFF2 + 14 ≤ 2 ^ 32 ∧ fresh.rem = 0) ∧
    (buffered.mem.wf = true ∧ EqualOrDisjoint 0x1000 0x1000 13 ∧ 0x1000 + 13 ≤ 2 ^ 32 ∧ buffered.rem ≠ 0) := by decide

theorem witness_WholeBlockStep :
    fresh.mem.wf = true ∧ EqualOrDisjoint 0xFFFFFF80 0xFFFFFFC0 64 ∧ 0xFFFFFFC0 + 64 ≤ 2 ^ 32 := by decide

/-- The tail step with r = 0, r = 1 and r = 63; a drain that leaves a byte. -/
theorem witness_TailStep :
    (fresh.mem.wf = true ∧ EqualOrDisjoint 0 0 0 ∧ 0 + 0 ≤ 2 ^ 32 ∧ 0 < 64) ∧
    (EqualOrDisjoint 0 1 1 ∧ 1 + 1 ≤ 2 ^ 32 ∧ 0 < 1) ∧
    (EqualOrDisjoint 0 0xFFFFFFC1 63 ∧ 0xFFFFFFC1 + 63 ≤ 2 ^ 32 ∧ 63 < 64) ∧
    min 15 buffered.rem.toNat < 15 := by decide

/-- PROCESS's premises: nothing buffered, 14 bytes buffered, and LEN = 0 past the top of memory. -/
theorem witness_ProcessCompletes :
    ProcessReady fresh 0x1000 0x2000 200 ∧ ProcessReady buffered 0xFFFFFF80 0xFFFFFF80 128 ∧
    ProcessReady fresh 0xFFFFFFFF 0xFFFFFFFF 0 ∧
    ProcessReady (freshWith #v[0xFFFFFFFF, 0xFFFFFFFF, 0, 0]) 0 64 63 := by decide

/-- The invariant with the premises, nothing buffered and 14 bytes buffered. -/
theorem witness_ProcessStreamLaw :
    (fresh.Inv ∧ ProcessReady fresh 0x1000 0x2000 200) ∧ (buffered.Inv ∧ ProcessReady buffered 0x1000 0x1000 15) :=
  ⟨⟨⟨by decide, by decide, by decide, by decide, by decide⟩, by decide⟩,
    ⟨⟨fun _ => rfl, by decide, by decide, by decide, by decide⟩, by decide⟩⟩

/-- Addresses just outside the destination. -/
theorem witness_ProcessMemoryFrame : (0x1FFF < 0x2000 ∨ 0x2000 + 64 ≤ 0x1FFF) ∧ (0x2040 < 0x2000 ∨ 0x2000 + 64 ≤ 0x2040) := by
  decide

theorem witness_PhaseAfterProcess :
    (fresh.fault = false ∧ exec (.process 0 64 1) fresh = .next (processRun 0 64 1 fresh) ∧
      (processRun 0 64 1 fresh).fault = false) ∧
    (NoFault buffered ∧ Inited buffered ∧ BelowLimit buffered 0) := ⟨⟨rfl, rfl, rfl⟩, by decide⟩

/-- Both outcomes of a session: the counter 1 and two commands, and the last counter with a whole block to do. -/
theorem witness_SessionStreamLaw :
    (State.reset.fault = false ∧ 0x100 + 32 ≤ 2 ^ 32 ∧ 0x200 + 16 ≤ 2 ^ 32 ∧
      (∀ c ∈ [(0x1000, 0x2000, 10), (0x100a, 0x200a, 54)],
        RangesInMemory c.1 c.2.1 c.2.2 ∧ EqualOrDisjoint c.1 c.2.1 c.2.2)) ∧
    ctr64 (loadWords 4 (bytesFrom 0x200 [1]) 0x200) + (10 + 54) / 64 < 2 ^ 64 ∧
    ctr64 (loadWords 4 (bytesFrom 0x200 (List.replicate 8 0xFF)) 0x200) + (10 + 54) / 64 ≥ 2 ^ 64 := by decide

theorem witness_ChunkingInvariance :
    [10, 70, 34] ≠ [] ∧ ProcessReady fresh 0x1000 0x2000 [10, 70, 34].sum ∧
    [0] ≠ [] ∧ ProcessReady buffered 0 0 [0].sum := by decide

/-- The second command reads what the first wrote: its memory is the first's result. -/
theorem witness_ProcessSelfInverse :
    ∃ (s s' t : State), s.k = s'.k ∧ s.cn = s'.cn ∧ s.rem = s'.rem ∧ (s.rem ≠ 0 → s.buf = s'.buf) ∧
      s.mem.wf = true ∧ s'.mem.wf = true ∧ ProcessReady s 0x1000 0x2000 20 ∧ ProcessReady s' 0x2000 0x3000 20 ∧
      exec (.process 0x1000 0x2000 20) s = .next t ∧ s.rem ≠ 0 ∧
      ∀ j < 20, s'.mem.read (0x2000 + j) = t.mem.read (0x2000 + j) := by
  refine ⟨buffered, { buffered with mem := (processRun 0x1000 0x2000 20 buffered).mem },
    processRun 0x1000 0x2000 20 buffered, rfl, rfl, rfl, fun _ => rfl, by decide, ?_, by decide, ?_, rfl, by decide,
    fun _ _ => rfl⟩
  · dsimp only
    rw [processRun_mem]
    exact xorRun_wf _ _ _ _ (by rw [processBytes_length]; decide) (by decide)
  · exact ⟨rfl, by simp [buffered], by decide, by decide, by decide⟩

theorem witness_InPlaceEqualsOutOfPlace :
    fresh.mem.wf = true ∧ ProcessReady fresh 0x1000 0x1040 64 ∧ 0x1000 ≠ 0x1040 := by decide

theorem witness_NotInitFault :
    (State.reset.fault = false ∧ State.reset.phase = .uninit) ∧
    (exec (.init 0xFFFFFFE1 0) State.reset = .next (raiseFault .addrRange State.reset) ∧
      (raiseFault .addrRange State.reset).fault = true) := ⟨by decide, rfl, rfl⟩

theorem witness_AddressRangeFault :
    State.reset.fault = false ∧ fresh.fault = false ∧ fresh.phase ≠ .uninit ∧
    (0xFFFFFFE1 + 32 > 2 ^ 32 ∧ ¬ 0xFFFFFFE0 + 32 > 2 ^ 32) ∧
    ((0 < 4 ∧ 0xFFFFFFFD + 4 > 2 ^ 32) ∧ ¬ 0xFFFFFFFC + 4 > 2 ^ 32) := by decide

/-- Distance LEN - 1 and distance LEN. -/
theorem witness_OverlapFault :
    fresh.fault = false ∧ fresh.phase ≠ .uninit ∧ RangesInMemory 0x1010 0x1000 0x11 ∧ RangesInMemory 0x1010 0x1000 0x10 := by
  decide

/-- 63 bytes and 64 bytes with the counter at its last value, nothing buffered. -/
theorem witness_CounterLimitFault :
    (freshWith #v[0xFFFFFFFF, 0xFFFFFFFF, 0, 0]).fault = false ∧
    (freshWith #v[0xFFFFFFFF, 0xFFFFFFFF, 0, 0]).phase ≠ .uninit ∧
    (freshWith #v[0xFFFFFFFF, 0xFFFFFFFF, 0, 0]).rem = 0 ∧
    (RangesInMemory 0 64 63 ∧ EqualOrDisjoint 0 64 63) ∧ (RangesInMemory 0 64 64 ∧ EqualOrDisjoint 0 64 64) := by decide

/-- One issued descriptor for each clause: faulted, illegal, INIT, PROCESS. -/
theorem witness_FaultPriority :
    ((issuing faulted 3 0 0 0).seqRunning = false ∧ (issuing faulted 3 0 0 0).fault = true) ∧
    ((issuing fresh 3 0 0 0).fault = false ∧ ∀ i, decode (.command (descriptor 3 0 0 0)) ≠ .instr i) ∧
    decode (.command (descriptor 1 0xFFFFFFE1 0 0)) = .instr (.init 0xFFFFFFE1 0) ∧
    decode (.command (descriptor 2 0xFFFFFFFD 0 4)) = .instr (.process 0xFFFFFFFD 0 4) := by
  refine ⟨by decide, ⟨by decide, fun i h => ?_⟩, by decide, by decide⟩
  have hr : decode (.command (descriptor 3 0 0 0)) = .rejected .reservedOp := by decide
  rw [hr] at h
  cases h

theorem witness_FaultEntryFrame :
    State.reset.fault = false ∧
    exec (.process 0 0 0) State.reset = .next (raiseFault .notInit State.reset) ∧
    (raiseFault .notInit State.reset).fault = true := ⟨rfl, rfl, rfl⟩

theorem witness_StickyFaultDropsCommands :
    (issuing faulted 1 0 0 0).fault = true ∧ (issuing faulted 1 0 0 0).seqRunning = false ∧
    (issuing faulted 1 0 0 0).host = [.issue (descriptor 1 0 0 0)] ∧
    { faulted with host := [.statusRead .word 0] }.host = [.statusRead .word 0] ∧
    { faulted with host := [.statusRead .word 16] }.host = [.statusRead .word (4 + 4 * (3 : Fin 4).val)] ∧
    faulted.phase ≠ .uninit := by decide

theorem witness_OnlyResetLeavesFault :
    (faulted.fault = true ∧ step faulted = .next faulted) ∧
    ({ faulted with host := [.reset] }.seqRunning = false ∧ { faulted with host := [.reset] }.host = [.reset]) :=
  ⟨⟨rfl, rfl⟩, by decide⟩

/-- Two states that differ in the key, the nonce words, BUF and memory. -/
theorem witness_ControlIndependentOfSecrets :
    ∃ s s' : State, s ≠ s' ∧ s.phase = s'.phase ∧ s.fault = s'.fault ∧ s.cause = s'.cause ∧ s.rem = s'.rem ∧
      s.cn[0] = s'.cn[0] ∧ s.cn[1] = s'.cn[1] := by
  refine ⟨fresh, { State.reset with cn := #v[0, 0, 1, 1], phase := .fresh, mem := keyMemory }, ?_, rfl, rfl, rfl, rfl,
    rfl, rfl⟩
  intro h
  have := congrArg (fun s => s.cn[2]) h
  revert this
  decide

theorem witness_StaleBufferUnobservable :
    fresh.rem = 0 ∧ (∀ keyptr ncptr, Instr.ser ≠ .init keyptr ncptr) ∧ ∀ src dst len, Instr.ser ≠ .process src dst len :=
  ⟨by decide, fun _ _ h => Instr.noConfusion h, fun _ _ _ h => Instr.noConfusion h⟩

theorem witness_StatusWordFields :
    (0xFFFFFFE0 + 32 ≤ 2 ^ 32 ∧ 0xFFFFFFF0 + 16 ≤ 2 ^ 32) ∧
    (ctr64 (freshWith #v[0xFFFFFFFE, 0xFFFFFFFF, 0, 0]).cn + 1 < 2 ^ 64 ∧ 0xFFFFFF8E + 114 ≤ 2 ^ 32) ∧
    { fresh with host := [.statusWrite .word 0 1] }.host = [.statusWrite .word 0 1] := by decide

theorem witness_CounterRegisters :
    { fresh with host := [.statusRead .word 0x10] }.host = [.statusRead .word (4 + 4 * (3 : Fin 4).val)] ∧
    fresh.seqRunning = false ∧ fresh.phase ≠ .uninit ∧ State.reset.seqRunning = false ∧ State.reset.phase = .uninit := by
  decide

/-- A legal read, a byte read, an offset past the registers, a write. -/
theorem witness_StatusPortAccesses :
    fresh.seqRunning = false ∧ { fresh with host := [.statusRead .word 0x10] }.host = [.statusRead .word 0x10] ∧
    (AccessWidth.byte ≠ .word ∧ 0x14 ∉ [0x00, 0x04, 0x08, 0x0C, 0x10]) ∧
    { fresh with host := [.statusWrite .word 0 1] }.host = [.statusWrite .word 0 1] := by decide

theorem witness_ResetEventEffect :
    { faulted with host := [.reset] }.seqRunning = false ∧ { faulted with host := [.reset] }.host = [.reset] := by decide

theorem witness_HostMemoryAccess :
    { fresh with host := [.memWrite 0xFFFFFFFF 7] }.seqRunning = false ∧
    { fresh with host := [.memWrite 0xFFFFFFFF 7] }.host = [.memWrite 0xFFFFFFFF 7] ∧ fresh.mem.wf = true ∧
    { fresh with host := [.memRead 0] }.host = [.memRead 0] := by decide

theorem witness_StepRunsDecodedCommand :
    (issuing fresh 2 0 64 1).seqRunning = false ∧ (issuing fresh 2 0 64 1).host = [.issue (descriptor 2 0 64 1)] ∧
    decode (.command (descriptor 2 0 64 1)) = .instr (.process 0 64 1) ∧
    decodeTableWord 128 0x00000000_00000200_00000100_00000001 = some (.init 0x100 0x200) := by decide

/-- The first and the last ROM entry. -/
theorem witness_StepRunsDecodedMicroOp :
    (invoking.seqRunning = true ∧ rom[invoking.bc.upc.toNat]? = some 0x10000 ∧ decode (.micro 0x10000) = .instr .ldx ∧
      exec .ldx invoking = .next { invoking with bc := invoking.bc.ldx }) ∧
    (rom[(82 : BitVec 7).toNat]? = some 0x40000 ∧ decode (.micro 0x40000) = .instr .ser) := ⟨⟨rfl, rfl, rfl, rfl⟩, by decide⟩

/-- A state of the invariant that is idle, one inside an invocation, one with keystream buffered. -/
theorem witness_StepKeepsInvariant :
    (State.reset.Inv ∧ step State.reset = .next State.reset) ∧ (invoking.Inv ∧ ∃ t, step invoking = .next t) ∧
    buffered.Inv :=
  ⟨⟨⟨by decide, by decide, by decide, by decide, by decide⟩, rfl⟩,
    ⟨⟨by decide, by decide, by decide, by decide, by decide⟩, ⟨_, rfl⟩⟩,
    ⟨fun _ => rfl, by decide, by decide, by decide, by decide⟩⟩

/-- States of the invariant for both answers: an issued descriptor, and a reserved access. -/
theorem witness_StepAlwaysAnswers :
    { fresh with host := [.statusRead .byte 0] }.Inv ∧ (issuing fresh 1 0 0 0).Inv :=
  ⟨⟨by decide, by decide, by decide, by decide, by decide⟩, ⟨by decide, by decide, by decide, by decide, by decide⟩⟩

theorem witness_KeyWrittenByInitOnly : step fresh = .next fresh := rfl

theorem witness_MemoryWriters :
    step { fresh with host := [.memWrite 0 1] } = .next { fresh with host := [], mem := [(0, 1)] } := rfl

end Sys2Proof.Tests
end

section
/-! Little-endian conversion (R9 of spec/00_scope.md): what `le32` and `byteOf` are as natural numbers. -/

namespace Sys2Proof.Machine

/-- Four base-256 digits stay below 2^32, so the truncation in `le32` loses nothing. -/
@[simp] theorem toNat_le32 (b0 b1 b2 b3 : Byte) :
    (le32 b0 b1 b2 b3).toNat = b0.toNat + 256 * b1.toNat + 65536 * b2.toNat + 16777216 * b3.toNat := by
  have hlt : b0.toNat + 256 * b1.toNat + 65536 * b2.toNat + 16777216 * b3.toNat < 2 ^ 32 := by omega
  rw [le32, BitVec.toNat_ofNat, Nat.mod_eq_of_lt hlt]

/-- Holds for every `j`; beyond 3 both sides are 0. -/
@[simp] theorem toNat_byteOf (w : Word) (j : Nat) : (byteOf w j).toNat = w.toNat / 256 ^ j % 256 :=
  BitVec.toNat_ofNat _ _

/-- A word below 2^32 is the sum of its four base-256 digits. -/
@[simp] theorem le32_byteOf (w : Word) : le32 (byteOf w 0) (byteOf w 1) (byteOf w 2) (byteOf w 3) = w := by
  apply BitVec.eq_of_toNat_eq
  have hw : w.toNat < 2 ^ 32 := w.isLt
  simp only [toNat_le32, toNat_byteOf]
  omega

/-- Settles O9: the three parts are the lemmas above. -/
theorem littleEndianConversion : Obligations.LittleEndianConversion :=
  ⟨toNat_le32, fun w j _ => toNat_byteOf w j, le32_byteOf⟩

end Sys2Proof.Machine
end

section
/-! The STATUS word and the counter registers as the host reads them (R33, R34 of spec/10_state.md), and the outcomes of
the two commands under the premises of R222. -/

namespace Sys2Proof.Machine

/-! ### The fields of STATUS -/

/-- Concatenation puts the left operand above the right one's `n` bits. -/
theorem toNat_append_add {m n : Nat} (x : BitVec m) (y : BitVec n) : (x ++ y).toNat = 2 ^ n * x.toNat + y.toNat := by
  rw [BitVec.toNat_append, ← Nat.shiftLeft_add_eq_or_of_lt y.isLt, Nat.shiftLeft_eq, Nat.mul_comm]

theorem toNat_statusWord (s : State) :
    (statusWord s).toNat =
      s.phase.code.toNat + 4 * s.fault.toNat + 16 * s.cause.code.toNat + 256 * s.rem.toNat := by
  simp only [statusWord, toNat_append_add, BitVec.toNat_ofBool, BitVec.ofNat_eq_ofNat, BitVec.toNat_zero]
  omega

/-! ### When a command completes or faults -/

theorem passesTop_eq_false_iff {base size : Nat} : passesTop base size = false ↔ base + size ≤ 2 ^ 32 := by
  rw [passesTop, Config.addressTop, decide_eq_false_iff_not, Nat.not_lt]

/-- Equal or disjoint ranges pass the distance test of OVERLAP (R184). -/
theorem partialOverlap_eq_false {src dst len : Nat} (h : EqualOrDisjoint src dst len) :
    partialOverlap src dst len = false := by
  rw [partialOverlap, Bool.and_eq_false_iff, decide_eq_false_iff_not, decide_eq_false_iff_not, distance]
  omega

/-- INIT completes when neither of its buffers passes the top of memory (R141, R183). -/
theorem exec_init_of_fits {s : State} {keyptr ncptr : Nat} (hfault : NoFault s) (hkey : keyptr + 32 ≤ 2 ^ 32)
    (hnonce : ncptr + 16 ≤ 2 ^ 32) :
    exec (.init keyptr ncptr) s =
      .next { s with k := loadWords 8 s.mem keyptr, cn := loadWords 4 s.mem ncptr, rem := 0, phase := .fresh } := by
  have hnone : initFault keyptr ncptr = none := by
    simp [initFault, passesTop_eq_false_iff.2 hkey, passesTop_eq_false_iff.2 hnonce]
  simp [exec, execInit, dropIfFaulted, hfault, hnone]

/-- The five premises of R222 exclude every fault of PROCESS. -/
theorem processFault_eq_none {s : State} {src dst len : Nat} (h : ProcessReady s src dst len) :
    processFault src dst len s = none := by
  obtain ⟨-, hinit, hrange, hoverlap, hlimit⟩ := h
  have htop : (decide (0 < len) && (passesTop src len || passesTop dst len)) = false := by
    rcases hrange with hlen | ⟨hsrc, hdst⟩
    · simp [hlen]
    · simp [passesTop_eq_false_iff.2 hsrc, passesTop_eq_false_iff.2 hdst]
  have hctr : ¬ ctr64 s.cn + incCount s.rem.toNat len ≥ Config.counterTop := Nat.not_le.2 hlimit
  simp [processFault, hinit, htop, partialOverlap_eq_false hoverlap, hctr]

theorem exec_process_of_ready {s : State} {src dst len : Nat} (h : ProcessReady s src dst len) :
    exec (.process src dst len) s = .next (processRun src dst len s) := by
  have hfault : s.fault = false := h.1
  simp [exec, execProcess, dropIfFaulted, hfault, processFault_eq_none h]

/-- Before any INIT every PROCESS raises NOT_INIT, whatever its operands (R182). -/
theorem exec_process_of_uninit {s : State} (src dst len : Nat) (hfault : NoFault s) (hphase : s.phase = .uninit) :
    exec (.process src dst len) s = .next (raiseFault .notInit s) := by
  simp [exec, execProcess, dropIfFaulted, hfault, processFault, hphase]

/-! ### The fields that STATUS shows after a completed PROCESS -/

@[simp] theorem processRun_phase (src dst len : Nat) (s : State) : (processRun src dst len s).phase = .streaming := by
  rw [processRun_frame]

@[simp] theorem processRun_fault (src dst len : Nat) (s : State) : (processRun src dst len s).fault = s.fault := by
  rw [processRun_frame]

@[simp] theorem processRun_cause (src dst len : Nat) (s : State) : (processRun src dst len s).cause = s.cause := by
  rw [processRun_frame]

/-- With nothing buffered a PROCESS leaves what its tail did not use; 64 is 0 in REM's six bits (R153). -/
theorem processRun_rem_of_rem_zero (src dst len : Nat) (s : State) (h : s.rem = 0) :
    (processRun src dst len s).rem = BitVec.ofNat 6 (64 - len % 64) := by
  have hdrain : drainCount s len = 0 := by simp [drainCount, h]
  rw [processRun_rem, hdrain, Nat.sub_zero]
  split
  · next hlen => simp [h, hlen]
  · rfl

/-! ### The host's reads and writes of the status port -/

theorem step_statusWrite {s : State} {width : AccessWidth} {offset : Nat} {v : Word} {rest : List HostAct}
    (hrun : s.seqRunning = false) (hhost : s.host = .statusWrite width offset v :: rest) :
    step s = .refused .statusAccess :=
  step_host s _ rest hrun hhost

/-- The offsets 0x04 to 0x10 are those of CN0 to CN3 (R32). -/
theorem statusRead_counter (i : Fin 4) (s : State) : statusRead .word (4 + 4 * i.val) s = counterAnswer s.cn[i] s :=
  match i with
  | 0 => rfl
  | 1 => rfl
  | 2 => rfl
  | 3 => rfl

theorem counterAnswer_of_inited {s : State} (v : Word) (h : Inited s) :
    counterAnswer v s = .next { s with resp := .word v } :=
  if_neg h

/-- Settles O45: the fields are the concatenation's digits; the examples use what INIT and PROCESS end in. -/
theorem statusWordFields : Obligations.StatusWordFields := by
  refine ⟨fun s => ?fields, rfl, fun keyptr ncptr hkey hnonce => ?examples, fun src dst len => ?notInit, ?write⟩
  case fields =>
    rw [toNat_statusWord]
    congr 3
    · cases s.phase <;> rfl
    · cases s.fault <;> rfl
    · cases s.cause <;> rfl
  case examples =>
    have hinc : incCount (0 : BitVec 6).toNat 114 = 1 := by decide
    refine ⟨_, exec_init_of_fits rfl hkey hnonce, BitVec.eq_of_toNat_eq (toNat_statusWord _),
      fun hctr src hsrc => ?_⟩
    refine ⟨_, exec_process_of_ready ⟨rfl, nofun, .inr ⟨hsrc, hsrc⟩, .inl rfl, ?below⟩, ?status⟩
    case below =>
      simpa only [BelowLimit, hinc] using hctr
    case status =>
      apply BitVec.eq_of_toNat_eq
      rw [toNat_statusWord, processRun_phase, processRun_fault, processRun_cause,
        processRun_rem_of_rem_zero _ _ _ _ rfl]
      rfl
  case notInit =>
    exact ⟨_, exec_process_of_uninit src dst len rfl rfl, rfl⟩
  case write =>
    intro s t width offset v rest hrun hhost hnext
    rw [step_statusWrite hrun hhost] at hnext
    cases hnext

/-- Settles O46: a read at CN[i]'s offset answers as `counterAnswer` does, by PHASE. -/
theorem counterRegisters : Obligations.CounterRegisters := by
  intro s i rest hrun hhost
  have hstep : step s = counterAnswer s.cn[i] { s with host := rest } :=
    (step_host s _ rest hrun hhost).trans (statusRead_counter i { s with host := rest })
  refine ⟨fun hphase => hstep.trans (counterAnswer_of_inited _ hphase), fun _ => ?_⟩
  obtain ⟨v, d, hnext⟩ := counterAnswer_next s.cn[i] { s with host := rest }
  exact ⟨v, d, hstep.trans hnext⟩

end Sys2Proof.Machine
end

section
/-! Command descriptors (R82 to R88 of spec/30_encoding.md): the fields as numbers, the two legal rows, what the decoder
answers on and off them, and their masks. -/

namespace Sys2Proof

open Machine (toNat_append_add)

/-! ### The fields of a descriptor as numbers -/

theorem toNat_extractLsb'_eq_div_mod {n : Nat} (start len : Nat) (x : BitVec n) :
    (x.extractLsb' start len).toNat = x.toNat / 2 ^ start % 2 ^ len := by
  rw [BitVec.extractLsb'_toNat, Nat.shiftRight_eq_div_pow]

theorem cmdOp_eq_iff (D : BitVec 128) (op : BitVec 8) : cmdOp D = op ↔ D.toNat % 2 ^ 8 = op.toNat := by
  rw [← BitVec.toNat_inj, cmdOp, toNat_extractLsb'_eq_div_mod, Nat.pow_zero, Nat.div_one]

theorem cmdRsv0_eq_zero_iff (D : BitVec 128) : cmdRsv0 D = 0 ↔ D.toNat / 2 ^ 8 % 2 ^ 24 = 0 := by
  rw [← BitVec.toNat_inj, cmdRsv0, toNat_extractLsb'_eq_div_mod]
  rfl

theorem cmdA_eq (D : BitVec 128) : cmdA D = D.toNat / 2 ^ 32 % 2 ^ 32 := toNat_extractLsb'_eq_div_mod ..

theorem cmdB_eq (D : BitVec 128) : cmdB D = D.toNat / 2 ^ 64 % 2 ^ 32 := toNat_extractLsb'_eq_div_mod ..

/-- L is the top word, so nothing above it is cut off. -/
theorem cmdL_eq (D : BitVec 128) : cmdL D = D.toNat / 2 ^ 96 := by
  have hlt : D.toNat / 2 ^ 96 < 2 ^ 32 := Nat.div_lt_of_lt_mul D.isLt
  rw [cmdL, toNat_extractLsb'_eq_div_mod, Nat.mod_eq_of_lt hlt]

/-! ### The two legal rows of R86 -/

/-- The row of INIT: OP = 0x01, RSV0 = 0, L = 0. -/
def InitRow (D : BitVec 128) : Prop :=
  D.toNat % 2 ^ 8 = 0x01 ∧ D.toNat / 2 ^ 8 % 2 ^ 24 = 0 ∧ D.toNat / 2 ^ 96 = 0

/-- The row of PROCESS: OP = 0x02, RSV0 = 0. -/
def ProcessRow (D : BitVec 128) : Prop := D.toNat % 2 ^ 8 = 0x02 ∧ D.toNat / 2 ^ 8 % 2 ^ 24 = 0

theorem initRow_iff_fields (D : BitVec 128) : InitRow D ↔ cmdOp D = 0x01 ∧ cmdRsv0 D = 0 ∧ cmdL D = 0 := by
  rw [cmdOp_eq_iff, cmdRsv0_eq_zero_iff, cmdL_eq]
  rfl

theorem processRow_iff_fields (D : BitVec 128) : ProcessRow D ↔ cmdOp D = 0x02 ∧ cmdRsv0 D = 0 := by
  rw [cmdOp_eq_iff, cmdRsv0_eq_zero_iff]
  rfl

theorem decodeCommand_of_initRow {D : BitVec 128} (h : InitRow D) :
    decodeCommand D = .instr (.init (cmdA D) (cmdB D)) := by
  obtain ⟨hop, hrsv, hlen⟩ := (initRow_iff_fields D).1 h
  simp [decodeCommand, hop, hrsv, hlen]

theorem decodeCommand_of_processRow {D : BitVec 128} (h : ProcessRow D) :
    decodeCommand D = .instr (.process (cmdA D) (cmdB D) (cmdL D)) := by
  obtain ⟨hop, hrsv⟩ := (processRow_iff_fields D).1 h
  simp [decodeCommand, hop, hrsv]

/-- Off both rows one of the tests of R88 fails. -/
theorem decodeCommand_rejected {D : BitVec 128} (hinit : ¬ InitRow D) (hprocess : ¬ ProcessRow D) :
    ∃ r, decodeCommand D = .rejected r := by
  rw [initRow_iff_fields] at hinit
  rw [processRow_iff_fields] at hprocess
  by_cases hrsv : cmdRsv0 D = 0
  · have hop2 : cmdOp D ≠ 0x02 := fun hop => hprocess ⟨hop, hrsv⟩
    by_cases hop1 : cmdOp D = 0x01
    · have hlen : cmdL D ≠ 0 := fun hlen => hinit ⟨hop1, hrsv, hlen⟩
      exact ⟨.initLength, by rw [decodeCommand, if_neg (not_not.2 hrsv), if_pos hop1, if_neg hlen]⟩
    · exact ⟨.reservedOp, by rw [decodeCommand, if_neg (not_not.2 hrsv), if_neg hop1, if_neg hop2]⟩
  · exact ⟨.reservedBits, by rw [decodeCommand, if_pos hrsv]⟩

/-- Every descriptor is on one row or off both, and the decoder answers accordingly (R86). -/
theorem decodeCommand_rows (D : BitVec 128) :
    (InitRow D ∧ decodeCommand D = .instr (.init (cmdA D) (cmdB D))) ∨
    (ProcessRow D ∧ decodeCommand D = .instr (.process (cmdA D) (cmdB D) (cmdL D))) ∨
    (¬ InitRow D ∧ ¬ ProcessRow D ∧ ∃ r, decodeCommand D = .rejected r) := by
  by_cases hinit : InitRow D
  · exact .inl ⟨hinit, decodeCommand_of_initRow hinit⟩
  · by_cases hprocess : ProcessRow D
    · exact .inr (.inl ⟨hprocess, decodeCommand_of_processRow hprocess⟩)
    · exact .inr (.inr ⟨hinit, hprocess, decodeCommand_rejected hinit hprocess⟩)

theorem initRow_of_decodeCommand {D : BitVec 128} {keyptr ncptr : Nat}
    (h : decodeCommand D = .instr (.init keyptr ncptr)) : InitRow D := by
  obtain ⟨hrow, -⟩ | ⟨-, hdec⟩ | ⟨-, -, r, hdec⟩ := decodeCommand_rows D
  · exact hrow
  · cases hdec.symm.trans h
  · cases hdec.symm.trans h

theorem processRow_of_decodeCommand {D : BitVec 128} {src dst len : Nat}
    (h : decodeCommand D = .instr (.process src dst len)) : ProcessRow D := by
  obtain ⟨-, hdec⟩ | ⟨hrow, -⟩ | ⟨-, -, r, hdec⟩ := decodeCommand_rows D
  · cases hdec.symm.trans h
  · exact hrow
  · cases hdec.symm.trans h

theorem not_rows_of_decodeCommand_rejected {D : BitVec 128} {r : Reject} (h : decodeCommand D = .rejected r) :
    ¬ InitRow D ∧ ¬ ProcessRow D := by
  obtain ⟨-, hdec⟩ | ⟨-, hdec⟩ | ⟨hinit, hprocess, -⟩ := decodeCommand_rows D
  · cases hdec.symm.trans h
  · cases hdec.symm.trans h
  · exact ⟨hinit, hprocess⟩

/-! ### The masks of R83 and R84 -/

/-- The four words as digits to the base 2^32 (R82). -/
theorem toNat_descriptor (w0 w1 w2 w3 : Word) :
    (descriptor w0 w1 w2 w3).toNat =
      w0.toNat + 2 ^ 32 * w1.toNat + 2 ^ 64 * w2.toNat + 2 ^ 96 * w3.toNat := by
  have happend : (descriptor w0 w1 w2 w3).toNat =
      2 ^ 32 * (2 ^ 32 * (2 ^ 32 * w3.toNat + w2.toNat) + w1.toNat) + w0.toNat := by
    simp only [← toNat_append_add]
    rfl
  omega

theorem descriptor_words (D : BitVec 128) :
    descriptor (D.extractLsb' 0 32) (D.extractLsb' 32 32) (D.extractLsb' 64 32) (D.extractLsb' 96 32) = D := by
  apply BitVec.eq_of_toNat_eq
  have hlt : D.toNat < 2 ^ 128 := D.isLt
  simp only [toNat_descriptor, toNat_extractLsb'_eq_div_mod]
  omega

/-- R83's mask keeps the first and the last word. -/
theorem toNat_and_initMask (D : BitVec 128) :
    (D &&& descriptor 0xFFFFFFFF#32 0#32 0#32 0xFFFFFFFF#32).toNat =
      D.toNat % 2 ^ 32 + 2 ^ 96 * (D.toNat / 2 ^ 96) := by
  have hmask : D &&& descriptor 0xFFFFFFFF#32 0#32 0#32 0xFFFFFFFF#32 =
      descriptor (D.extractLsb' 0 32) 0#32 0#32 (D.extractLsb' 96 32) := by
    conv_lhs => rw [← descriptor_words D, Laws.RowMatch.descriptor_mask]
    simp only [BitVec.and_zero, show 0xFFFFFFFF#32 = BitVec.allOnes 32 from rfl, BitVec.and_allOnes]
  have hlt : D.toNat < 2 ^ 128 := D.isLt
  simp only [hmask, toNat_descriptor, toNat_extractLsb'_eq_div_mod, BitVec.toNat_zero]
  omega

theorem and_initMask_eq_iff (D : BitVec 128) :
    D &&& 0xFFFFFFFF_00000000_00000000_FFFFFFFF = 0x00000000_00000000_00000000_00000001 ↔ InitRow D := by
  have hnat : (D &&& 0xFFFFFFFF_00000000_00000000_FFFFFFFF).toNat =
      D.toNat % 2 ^ 32 + 2 ^ 96 * (D.toNat / 2 ^ 96) := toNat_and_initMask D
  have hone : (0x00000000_00000000_00000000_00000001 : BitVec 128).toNat = 1 := rfl
  rw [← BitVec.toNat_inj, hnat, hone, InitRow]
  omega

/-- R84's mask keeps the first word. -/
theorem and_processMask_eq_iff (D : BitVec 128) :
    D &&& 0x00000000_00000000_00000000_FFFFFFFF = 0x00000000_00000000_00000000_00000002 ↔ ProcessRow D := by
  have hnat : (D &&& 0x00000000_00000000_00000000_FFFFFFFF).toNat = D.toNat % 2 ^ 32 :=
    Nat.and_two_pow_sub_one_eq_mod D.toNat 32
  have htwo : (0x00000000_00000000_00000000_00000002 : BitVec 128).toNat = 2 := rfl
  rw [← BitVec.toNat_inj, hnat, htwo, ProcessRow]
  omega

/-! ### The statements -/

/-- Settles O1: the mask selects the row, and on the row alone the decoder answers INIT. -/
theorem initDescriptorRow : Obligations.InitDescriptorRow := by
  refine ⟨fun D hmask => ?_, fun D keyptr ncptr hdec => ?_, by decide⟩
  · rw [decode, decodeCommand_of_initRow ((and_initMask_eq_iff D).1 hmask), cmdA_eq, cmdB_eq]
  · exact (and_initMask_eq_iff D).2 (initRow_of_decodeCommand hdec)

/-- Settles O2: the mask selects the row, and on the row alone the decoder answers PROCESS. -/
theorem processDescriptorRow : Obligations.ProcessDescriptorRow := by
  refine ⟨fun D hmask => ?_, fun D src dst len hdec => ?_, by decide⟩
  · rw [decode, decodeCommand_of_processRow ((and_processMask_eq_iff D).1 hmask), cmdA_eq, cmdB_eq, cmdL_eq]
  · exact (and_processMask_eq_iff D).2 (processRow_of_decodeCommand hdec)

/-- Settles O3: the decoder answers by row. -/
theorem legalDescriptorMap : Obligations.LegalDescriptorMap := by
  refine fun D => ⟨⟨?_, ?_⟩, ⟨?_, ?_⟩, ⟨?_, ?_⟩⟩
  · exact fun ⟨_, _, hdec⟩ => initRow_of_decodeCommand hdec
  · exact fun hrow => ⟨_, _, decodeCommand_of_initRow hrow⟩
  · exact fun ⟨_, _, _, hdec⟩ => processRow_of_decodeCommand hdec
  · exact fun hrow => ⟨_, _, _, decodeCommand_of_processRow hrow⟩
  · exact fun ⟨_, hdec⟩ => not_rows_of_decodeCommand_rejected hdec
  · exact fun ⟨hinit, hprocess⟩ => decodeCommand_rejected hinit hprocess

end Sys2Proof

namespace Sys2Proof.Machine

/-- A rejected descriptor raises ILLEGAL_CMD (R87), unless it is dropped (R188 of spec/60_exceptions.md). -/
theorem issueCommand_of_rejected {D : BitVec 128} {r : Reject} {s : State} (hdec : decodeCommand D = .rejected r)
    (hfault : NoFault s) : issueCommand D s = .next (raiseFault .illegalCmd s) := by
  simp [issueCommand, hdec, illegalCommand, dropIfFaulted, hfault]

/-- Settles O4: an illegal descriptor is on neither row, so the decoder rejects it. -/
theorem illegalCommandFaults : Obligations.IllegalCommandFaults := by
  intro s D rest hrun hfault hhost hillegal
  have hinit : ¬ InitRow D := by
    unfold InitRow
    omega
  have hprocess : ¬ ProcessRow D := by
    unfold ProcessRow
    omega
  obtain ⟨r, hdec⟩ := decodeCommand_rejected hinit hprocess
  exact (step_host s _ rest hrun hhost).trans (issueCommand_of_rejected hdec hfault)

end Sys2Proof.Machine
end

section
/-! Micro-op words (R90 to R94 of spec/30_encoding.md): a word that decodes is the word of its instruction; and the ROM's
listing (R92). -/

namespace Sys2Proof.Machine

/-- A micro-op word is its UOP above its index fields (R90). -/
theorem uopCode_append_uopIndices (w : BitVec 20) : uopCode w ++ uopIndices w = w :=
  (BitVec.extractLsb'_append_extractLsb'_eq_extractLsb' (h := (rfl : 16 = 0 + 16))).trans BitVec.extractLsb'_eq_self

/-- A micro-op without operands is its UOP above zero fields (R91). -/
theorem encode_of_plainMicro {uop : BitVec 4} {w : BitVec 20} {i j : Instr}
    (hencode : encode i = .micro (uop ++ (0 : BitVec 16))) (huop : uopCode w = uop) (h : plainMicro w i = .instr j) :
    encode j = .micro w := by
  unfold plainMicro at h
  split at h
  next hidx =>
    cases h
    rw [hencode, ← huop, ← hidx, uopCode_append_uopIndices]
  next => cases h

/-- Each tuple of R93 stands in the word of its QR. -/
theorem encode_of_lookup_qrTuples {t : BitVec 16} {i : Instr} (h : qrTuples.lookup t = some i) :
    encode i = .micro ((0x2 : BitVec 4) ++ t) := by
  have hall : ∀ p ∈ qrTuples, encode p.2 = .micro ((0x2 : BitVec 4) ++ p.1) := by decide
  obtain ⟨l, l', hsplit, -⟩ := List.lookup_eq_some_iff.1 h
  exact hall (t, i) (by simp [hsplit])

/-- What the decoder reads from a micro-op word encodes to that word. -/
theorem encode_of_decodeMicro {w : BitVec 20} {i : Instr} (h : decodeMicro w = .instr i) : encode i = .micro w := by
  unfold decodeMicro at h
  split at h
  next huop => exact encode_of_plainMicro rfl huop h
  split at h
  next huop =>
    split at h
    next j hlookup =>
      cases h
      rw [encode_of_lookup_qrTuples hlookup, ← huop, uopCode_append_uopIndices]
    next => cases h
  split at h
  next huop => exact encode_of_plainMicro rfl huop h
  split at h
  next huop => exact encode_of_plainMicro rfl huop h
  next => cases h

/-- The eleven micro-op words of R91 and R93 are the only words of micro-ops. -/
theorem mem_of_encode_eq_micro {w : BitVec 20} {i : Instr} (h : encode i = .micro w) :
    w ∈ [0x10000, 0x2048C, 0x2159D, 0x226AE, 0x237BF, 0x205AF, 0x216BC, 0x2278D, 0x2349E, 0x30000, 0x40000] := by
  cases i <;> cases h <;> decide

/-- Settles O5: a word that decoded, as every word of the ROM does, would be one of the eleven. -/
theorem reservedMicroWords : Obligations.ReservedMicroWords := by
  refine ⟨fun w hw => ?_, by decide⟩
  have hno : ∀ i, decodeMicro w ≠ .instr i := fun i hdec => hw (mem_of_encode_eq_micro (encode_of_decodeMicro hdec))
  constructor
  · cases hdec : decodeMicro w with
    | instr i => exact absurd hdec (hno i)
    | rejected r => exact ⟨r, hdec⟩
  · intro hrom
    obtain ⟨i, hdec, -⟩ := rom_word_decodes w hrom
    exact hno i hdec

/-- Settles O16: 80 entries between LDX and FFW, each checked. -/
theorem romListing : Obligations.RomListing :=
  ⟨rom_length, rfl, by decide, rfl, rfl⟩

end Sys2Proof.Machine
end

section
/-! The places of the micro-op words in the ROM (R92 of spec/30_encoding.md), and what each of the four kinds of micro-op
does to the Block Core's registers (R112 to R116 of spec/40_block_core.md). -/

namespace Sys2Proof.Machine

/-! ### Where a word stands in the ROM -/

/-- The ROM read by position: LDX, then slot `slot` of iteration `j` at 1 + 8 j + slot, then FFW and SER (R92). -/
theorem rom_getElem?_eq_some_iff {n : Nat} {w : BitVec 20} :
    rom[n]? = some w ↔
      (n = 0 ∧ w = 0x10000) ∨ (∃ j < 10, ∃ slot < 8, n = 1 + 8 * j + slot ∧ iterationWords[slot]? = some w) ∨
      (n = 81 ∧ w = 0x30000) ∨ (n = 82 ∧ w = 0x40000) := by
  obtain ⟨hlen, hldx, hqr, hffw, hser⟩ := romListing
  constructor
  · intro hw
    have hlt : n < 83 := hlen ▸ (List.getElem?_eq_some_iff.1 hw).1
    have hplace : n = 0 ∨ (n - 1) / 8 < 10 ∧ n = 1 + 8 * ((n - 1) / 8) + (n - 1) % 8 ∨ n = 81 ∨ n = 82 := by omega
    obtain rfl | ⟨hj, hn⟩ | rfl | rfl := hplace
    · exact .inl ⟨rfl, Option.some.inj (hw.symm.trans hldx)⟩
    · have hslot : (n - 1) % 8 < 8 := Nat.mod_lt _ (by decide)
      exact .inr (.inl ⟨_, hj, _, hslot, hn, (hqr _ hj _ hslot).symm.trans (hn ▸ hw)⟩)
    · exact .inr (.inr (.inl ⟨rfl, Option.some.inj (hw.symm.trans hffw)⟩))
    · exact .inr (.inr (.inr ⟨rfl, Option.some.inj (hw.symm.trans hser)⟩))
  · rintro (⟨rfl, rfl⟩ | ⟨j, hj, slot, hslot, rfl, hw⟩ | ⟨rfl, rfl⟩ | ⟨rfl, rfl⟩)
    · exact hldx
    · exact (hqr j hj slot hslot).trans hw
    · exact hffw
    · exact hser

/-- A word that is no QR of an iteration stands at one of the three single places. -/
theorem rom_getElem?_eq_some_iff_of_not_mem {n : Nat} {w : BitVec 20} (hw : w ∉ iterationWords) :
    rom[n]? = some w ↔ (n = 0 ∧ w = 0x10000) ∨ (n = 81 ∧ w = 0x30000) ∨ (n = 82 ∧ w = 0x40000) := by
  have hslot : ∀ slot, iterationWords[slot]? ≠ some w := fun _ h => hw (List.mem_of_getElem? h)
  simp [rom_getElem?_eq_some_iff, hslot]

/-- The QR word of a slot stands once in each of the ten iterations, and nowhere else. -/
theorem rom_getElem?_eq_slot_iff {slot n : Nat} {w : BitVec 20} (hw : iterationWords[slot]? = some w) :
    rom[n]? = some w ↔ ∃ j < 10, n = 1 + 8 * j + slot := by
  have hlt : slot < iterationWords.length := (List.getElem?_eq_some_iff.1 hw).1
  have hnodup : iterationWords.Nodup := by decide
  have hmem : w ∈ iterationWords := List.mem_of_getElem? hw
  have hldx : 0x10000 ∉ iterationWords := by decide
  have hffw : 0x30000 ∉ iterationWords := by decide
  have hser : 0x40000 ∉ iterationWords := by decide
  rw [rom_getElem?_eq_some_iff]
  constructor
  · rintro (⟨-, h⟩ | ⟨j, hj, slot', -, rfl, hw'⟩ | ⟨-, h⟩ | ⟨-, h⟩)
    · exact absurd (h ▸ hmem) hldx
    · have hsame : slot = slot' := (List.getElem?_inj hlt hnodup).1 (hw.trans hw'.symm)
      exact ⟨j, hj, hsame ▸ rfl⟩
    · exact absurd (h ▸ hmem) hffw
    · exact absurd (h ▸ hmem) hser
  · rintro ⟨j, hj, rfl⟩
    exact .inr (.inl ⟨j, hj, slot, hlt, rfl, hw⟩)

/-- Settles O11: one place in the ROM, and LDX's effect on the registers. -/
theorem ldxCopiesInput : Obligations.LdxCopiesInput :=
  ⟨rfl, fun _ => (rom_getElem?_eq_some_iff_of_not_mem (by decide)).trans (by simp),
    fun s => exec_micro .ldx s rfl⟩

/-! ### FFW and SER -/

@[simp] theorem addWords_getElem (x inp : Vector Word 16) (i : Fin 16) : (addWords x inp)[i] = x[i] + inp[i] := by
  simp [addWords]

/-- Byte `k` of word `i` is byte 4 i + k of the block. -/
theorem serialise_getElem (x : Vector Word 16) (i k : Nat) (hi : i < 16) (hk : k < 4) :
    (serialise x)[4 * i + k] = byteOf x[i] k := by
  have hdiv : (4 * i + k) / 4 = i := by omega
  have hmod : (4 * i + k) % 4 = k := by omega
  simp only [serialise, Vector.getElem_ofFn, hdiv, hmod]

/-- Settles O14: one place in the ROM, and FFW's effect word by word. -/
theorem ffwAddsInput : Obligations.FfwAddsInput :=
  ⟨rfl, fun _ => (rom_getElem?_eq_some_iff_of_not_mem (by decide)).trans (by simp),
    fun s => ⟨_, exec_micro .ffw s rfl, rfl, addWords_getElem s.bc.x s.bc.inp⟩⟩

/-- Settles O15: one place in the ROM, and SER's effect byte by byte. -/
theorem serWritesLittleEndian : Obligations.SerWritesLittleEndian := by
  refine ⟨rfl, fun n => ?place, fun s => ⟨_, exec_micro .ser s rfl, rfl, fun i hi => ?bytes⟩⟩
  case place =>
    exact (rom_getElem?_eq_some_iff_of_not_mem (by decide)).trans (by simp)
  case bytes =>
    have hbyte (k : Nat) (hk : k < 4) : ((serialise s.bc.x)[4 * i + k]).toNat = s.bc.x[i].toNat / 256 ^ k % 256 := by
      rw [serialise_getElem _ _ _ hi hk, toNat_byteOf]
    have hlt : s.bc.x[i].toNat < 2 ^ 32 := s.bc.x[i].isLt
    refine ⟨(hbyte 0 (by decide)).trans ?_, hbyte 1 (by decide), hbyte 2 (by decide),
      (hbyte 3 (by decide)).trans ?_⟩ <;> omega

/-! ### The ARX step and the quarter-round -/

theorem arx_getElem_sum {x z : Fin 16} (hxz : x ≠ z) (v : Vector Word 16) (y : Fin 16) (r : Nat) :
    (arx v x y z r)[x] = v[x] + v[y] := by
  simp [arx, Vector.getElem_set, Fin.val_inj, hxz.symm]

theorem arx_getElem_rot {x z : Fin 16} (hxz : x ≠ z) (v : Vector Word 16) (y : Fin 16) (r : Nat) :
    (arx v x y z r)[z] = rotl32 (v[z] ^^^ (v[x] + v[y])) r := by
  simp [arx, Fin.val_inj, hxz]

theorem arx_getElem_other {i x z : Fin 16} (hx : x ≠ i) (hz : z ≠ i) (v : Vector Word 16) (y : Fin 16) (r : Nat) :
    (arx v x y z r)[i] = v[i] := by
  simp [arx, Vector.getElem_set, Fin.val_inj, hx, hz]

@[simp] theorem rotl32_zero (r : Nat) : rotl32 0#32 r = 0#32 := by
  simp [rotl32, BitVec.rotateLeft_def]

/-- On zero words the step writes zeros over zeros. -/
theorem arx_of_zero {v : Vector Word 16} {x y z : Fin 16} (hx : v[x] = 0) (hy : v[y] = 0) (hz : v[z] = 0) (r : Nat) :
    arx v x y z r = v := by
  have hsum : v[x] + v[y] = v[x] := by simp [hy]
  have hrot : rotl32 (v[z] ^^^ v[x]) r = v[z] := by simp [hx, hz]
  have hset (i : Fin 16) : v.set i v[i] = v := Vector.set_getElem_self ..
  simp only [arx, hsum, hset, hrot]

theorem quarterRound_of_zero {X : Vector Word 16} {a b c d : Fin 16} (ha : X[a] = 0) (hb : X[b] = 0) (hc : X[c] = 0)
    (hd : X[d] = 0) : quarterRound a b c d X = X := by
  simp only [quarterRound, arx_of_zero ha hb hd, arx_of_zero hc hd hb]

/-- The four lines of R113 on the words alone. -/
def quarterRoundWords (a b c d : Word) : Word × Word × Word × Word :=
  let a1 := a + b
  let d1 := rotl32 (d ^^^ a1) 16
  let c1 := c + d1
  let b1 := rotl32 (b ^^^ c1) 12
  let a2 := a1 + b1
  let d2 := rotl32 (d1 ^^^ a2) 8
  let c2 := c1 + d2
  let b2 := rotl32 (b1 ^^^ c2) 7
  (a2, b2, c2, d2)

/-- On distinct indices each ARX step reads what the steps before it left. -/
theorem quarterRound_getElem {a b c d : Fin 16} (h : [a, b, c, d].Nodup) (X : Vector Word 16) :
    ((quarterRound a b c d X)[a], (quarterRound a b c d X)[b], (quarterRound a b c d X)[c],
      (quarterRound a b c d X)[d]) = quarterRoundWords X[a] X[b] X[c] X[d] := by
  obtain ⟨⟨hab, hac, had⟩, ⟨hbc, hbd⟩, hcd⟩ :
      (a ≠ b ∧ a ≠ c ∧ a ≠ d) ∧ (b ≠ c ∧ b ≠ d) ∧ c ≠ d := by simpa using h
  simp only [quarterRound, quarterRoundWords, arx_getElem_sum had, arx_getElem_rot had, arx_getElem_sum hbc.symm,
    arx_getElem_rot hbc.symm, arx_getElem_other hab hbd.symm, arx_getElem_other hac hcd.symm,
    arx_getElem_other hac.symm hab.symm, arx_getElem_other hcd hbd]

theorem quarterRound_getElem_other {a b c d i : Fin 16} (h : i ∉ [a, b, c, d]) (X : Vector Word 16) :
    (quarterRound a b c d X)[i] = X[i] := by
  obtain ⟨ha, hb, hc, hd⟩ : i ≠ a ∧ i ≠ b ∧ i ≠ c ∧ i ≠ d := by simpa using h
  simp only [quarterRound, arx_getElem_other ha.symm hd.symm, arx_getElem_other hc.symm hb.symm]

/-- A worked example: the four words it starts from, run through R113's lines. -/
theorem quarterRound_getElem_of_words {i j k l : Fin 16} (h : [i, j, k, l].Nodup) {X : Vector Word 16}
    {a b c d a' b' c' d' : Word} (ha : X[i] = a) (hb : X[j] = b) (hc : X[k] = c) (hd : X[l] = d)
    (hwords : quarterRoundWords a b c d = (a', b', c', d')) :
    (quarterRound i j k l X)[i] = a' ∧ (quarterRound i j k l X)[j] = b' ∧
      (quarterRound i j k l X)[k] = c' ∧ (quarterRound i j k l X)[l] = d' := by
  have hX := quarterRound_getElem h X
  rw [ha, hb, hc, hd, hwords] at hX
  simpa only [Prod.mk.injEq] using hX

/-- Settles O12: the four lines as `quarterRoundWords`, by the ARX steps; the example by running them. -/
theorem quarterRoundFunction : Obligations.QuarterRoundFunction := by
  refine ⟨fun a b c d X hnodup => ?lines, fun X ha hb hc hd => ?worked⟩
  case lines =>
    have hwords := quarterRound_getElem hnodup X
    simp only [quarterRoundWords, Prod.mk.injEq] at hwords
    obtain ⟨ha, hb, hc, hd⟩ := hwords
    exact ⟨ha, hb, hc, hd, fun i hi => quarterRound_getElem_other hi X⟩
  case worked =>
    exact quarterRound_getElem_of_words (i := 0) (j := 4) (k := 8) (l := 12) (by decide) ha hb hc hd (by decide)

/-! ### The eight QR micro-ops -/

/-- The word of QR a, b, c, d as the sum R114 gives. -/
def qrNumber (a b c d : Fin 16) : BitVec 20 :=
  BitVec.ofNat 20 (0x20000 + a.val * 4096 + b.val * 256 + c.val * 16 + d.val)

theorem exec_of_microEffect_qr {i : Instr} {a b c d : Fin 16} (hmicro : isMicro i = true)
    (heffect : microEffect i = BlockCore.qr a b c d) (s : State) :
    exec i s = .next { s with bc := s.bc.qr a b c d } := by
  rw [exec_micro i s hmicro, heffect]

/-- What R114 says of one row of R93, once the row's word, slot and effect are known. -/
theorem qrRow_of_slot {i : Instr} {a b c d : Fin 16} {slot : Nat} (hmicro : isMicro i = true)
    (heffect : microEffect i = BlockCore.qr a b c d) (hword : encode i = .micro (qrNumber a b c d))
    (hslot : iterationWords[slot]? = some (qrNumber a b c d)) :
    encode i = .micro (qrNumber a b c d) ∧
    (∀ n : Nat, rom[n]? = some (qrNumber a b c d) ↔ ∃ j < 10, n = 1 + 8 * j + slot) ∧
    (∀ s : State, exec i s = .next { s with bc := { s.bc with x := quarterRound a b c d s.bc.x } }) ∧
    (∀ X : Vector Word 16, X[a] = 0 → X[b] = 0 → X[c] = 0 → X[d] = 0 → quarterRound a b c d X = X) :=
  ⟨hword, fun _ => rom_getElem?_eq_slot_iff hslot, exec_of_microEffect_qr hmicro heffect,
    fun _ => quarterRound_of_zero⟩

/-- Settles O13: each row by `qrRow_of_slot`; the example by running the four lines. -/
theorem quarterRoundMicroOps : Obligations.QuarterRoundMicroOps := by
  refine ⟨?rows, fun s ha hb hc hd => ⟨_, exec_micro .qrCol0 s rfl, ?worked⟩⟩
  case rows =>
    intro row hrow
    simp only [List.mem_cons, List.not_mem_nil, or_false] at hrow
    obtain rfl | rfl | rfl | rfl | rfl | rfl | rfl | rfl := hrow <;> exact qrRow_of_slot rfl rfl rfl rfl
  case worked =>
    exact quarterRound_getElem_of_words (i := 0) (j := 4) (k := 8) (l := 12) (by decide) ha hb hc hd (by decide)

end Sys2Proof.Machine
end

section
/-! INIT, the drain step of PROCESS, and the PHASE that PROCESS ends in (R141, R151, R154 of
spec/41_stream_engine.md). -/

namespace Sys2Proof.Machine

/-! ### INIT (R141) -/

/-- The words are read from rising addresses, four bytes apart. -/
theorem loadWords_getElem {n : Nat} (m : Memory) (base : Nat) (i : Fin n) :
    (loadWords n m base)[i] = loadWord m (base + 4 * i.val) := by
  simp [loadWords]

/-- A buffer of INIT past the top of memory raises ADDR_RANGE (R183 of spec/60_exceptions.md). -/
theorem initFault_of_passes_top {keyptr ncptr : Nat} (h : keyptr + 32 > 2 ^ 32 ∨ ncptr + 16 > 2 ^ 32) :
    initFault keyptr ncptr = some .addrRange := by
  have hpasses : (passesTop keyptr 32 || passesTop ncptr 16) = true := by
    simpa [passesTop, Config.addressTop] using h
  exact if_pos hpasses

/-- The other outcome of an INIT that is not dropped, beside `exec_init_of_fits`. -/
theorem exec_init_of_passes_top {s : State} {keyptr ncptr : Nat} (hfault : NoFault s)
    (h : keyptr + 32 > 2 ^ 32 ∨ ncptr + 16 > 2 ^ 32) :
    exec (.init keyptr ncptr) s = .next (raiseFault .addrRange s) := by
  simp [exec, execInit, dropIfFaulted, hfault, initFault_of_passes_top h]

theorem exec_init_of_faulted {s : State} (keyptr ncptr : Nat) (hfault : s.fault = true) :
    exec (.init keyptr ncptr) s = .next s :=
  if_pos hfault

/-- Settles O21: the outcomes of INIT by its range check and FAULT; a descriptor off both rows is rejected. -/
theorem initLoadsContext : Obligations.InitLoadsContext := by
  refine ⟨fun keyptr ncptr s hfault hkey hnonce => ?loads, fun keyptr ncptr s hfault h => ?range,
    fun keyptr ncptr s => exec_init_of_faulted keyptr ncptr, fun D hop hbad => ?rejected⟩
  case loads =>
    exact ⟨_, exec_init_of_fits hfault hkey hnonce, rfl, loadWords_getElem s.mem keyptr,
      loadWords_getElem s.mem ncptr⟩
  case range =>
    exact exec_init_of_passes_top hfault h
  case rejected =>
    have hinit : ¬ InitRow D := by
      unfold InitRow
      omega
    have hprocess : ¬ ProcessRow D := by
      unfold ProcessRow
      omega
    exact decodeCommand_rejected hinit hprocess

/-! ### The drain step (R151) -/

theorem drain_of_rem_zero (src dst len : Nat) {s : State} (h : s.rem = 0) : drain src dst len s = s :=
  if_pos h

/-- With bytes buffered, the counter advances exactly when LEN reaches all of them (R147). -/
theorem drainCn_of_rem_ne_zero {s : State} (len : Nat) (h : s.rem ≠ 0) :
    drainCn s len = if s.rem.toNat ≤ len then incrCn s.cn else s.cn := by
  have hpos : 0 < s.rem.toNat := Nat.pos_of_ne_zero fun h0 => h (BitVec.eq_of_toNat_eq h0)
  simp [drainCn, drained, hpos]

/-- The bytes served are those of BUF from offset 64 - REM on. -/
theorem drainBytes_getElem {s : State} {len j : Nat} (hj : j < (drainBytes s len).length) :
    (drainBytes s len)[j] = (s.buf.toList[64 - s.rem.toNat + j]?).getD 0 := by
  have hcount : j < drainCount s len := by rwa [drainBytes_length] at hj
  have hget : (drainBytes s len)[j]? = s.buf.toList[64 - s.rem.toNat + j]? := by
    rw [drainBytes, List.getElem?_take_of_lt hcount, List.getElem?_drop]
  rw [← hget, List.getElem?_eq_getElem hj, Option.getD_some]

theorem drain_read_inside {src dst len j : Nat} {s : State} (hwf : s.mem.wf = true)
    (hranges : EqualOrDisjoint src dst len) (htop : dst + len ≤ 2 ^ 32) (hj : j < drainCount s len) :
    (drain src dst len s).mem.read (dst + j) =
      s.mem.read (src + j) ^^^ (s.buf.toList[64 - s.rem.toNat + j]?).getD 0 := by
  have hle := drainCount_le_len s len
  have hlen := drainBytes_length s len
  have hj' : j < (drainBytes s len).length := by omega
  have htop' : dst + (drainBytes s len).length ≤ Config.addressTop := by
    rw [Config.addressTop]
    omega
  rw [drain_mem, xorRun_read_inside _ src dst j s.mem hj' (by omega) htop' hwf, drainBytes_getElem]

theorem drain_read_outside {src dst len a : Nat} {s : State} (h : a < dst ∨ dst + drainCount s len ≤ a) :
    (drain src dst len s).mem.read a = s.mem.read a := by
  rw [drain_mem]
  exact xorRun_read_outside _ _ _ _ _ (by rwa [drainBytes_length])

/-- Settles O23: the frame of `drain`, its REM as a number, and its byte run. -/
theorem drainStep : Obligations.DrainStep := by
  refine fun src dst len s hwf hranges htop => ⟨drain_of_rem_zero src dst len, fun hrem => ⟨?frame,
    drain_rem_toNat src dst len s, fun j => drain_read_inside hwf hranges htop, fun a => drain_read_outside⟩⟩
  rw [← drainCn_of_rem_ne_zero len hrem, drain_mem]
  exact drain_frame src dst len s

/-! ### The PHASE after PROCESS (R154) -/

/-- A PROCESS whose next state shows no fault was neither dropped nor faulted: it ran its three steps. -/
theorem eq_processRun_of_exec {s t : State} {src dst len : Nat} (hfault : NoFault s)
    (hexec : exec (.process src dst len) s = .next t) (ht : NoFault t) : t = processRun src dst len s := by
  obtain ⟨hdropped, -⟩ | ⟨-, c, -, hnext⟩ | ⟨-, -, hnext⟩ := execProcess_cases src dst len s
  · cases hfault.symm.trans hdropped
  · cases hnext.symm.trans hexec
    cases ht
  · cases hnext.symm.trans hexec
    rfl

/-- A drain that serves no byte empties no buffer. -/
theorem drained_len_zero (rem : Nat) : drained rem 0 = false := by
  simp [drained, Nat.pos_iff_ne_zero]

/-- Nothing to serve: memory, REM and the counter stay. -/
theorem drain_of_len_zero (src dst : Nat) (s : State) : drain src dst 0 s = s := by
  have hcount : drainCount s 0 = 0 := Nat.zero_min _
  simp [drain_frame, drainBytes, hcount, xorRun, drainCn, drained_len_zero]

/-- With LEN = 0 all three steps do nothing (R150). -/
theorem processRun_of_len_zero (src dst : Nat) (s : State) :
    processRun src dst 0 s = releaseBlockCore { s with phase := .streaming } := by
  simp [processRun, drain_of_len_zero, blocks, tail]

/-- With LEN = 0 no address is used, so only the premises on FAULT, PHASE and the counter remain of R222. -/
theorem processReady_of_len_zero {s : State} (src dst : Nat) (hfault : NoFault s) (hinit : Inited s)
    (hlimit : BelowLimit s 0) : ProcessReady s src dst 0 :=
  ⟨hfault, hinit, .inl rfl, .inr (Nat.le_total src dst), hlimit⟩

/-- Settles O29: `processRun` ends in STREAMING, and with LEN = 0 only that and the Block Core's registers differ. -/
theorem phaseAfterProcess : Obligations.PhaseAfterProcess := by
  refine ⟨fun s t src dst len hfault hexec ht => ?streaming, fun s src dst hfault hinit hlimit => ?zero⟩
  case streaming =>
    rw [eq_processRun_of_exec hfault hexec ht, processRun_phase]
  case zero =>
    refine ⟨_, exec_process_of_ready (processReady_of_len_zero src dst hfault hinit hlimit), ?_⟩
    rw [processRun_of_len_zero]
    rfl

end Sys2Proof.Machine
end

section
/-! The faults (R181 to R191 of spec/60_exceptions.md): when each command raises which cause, what raising one leaves
unchanged, and that a faulted engine drops every command until the reset event. -/

namespace Sys2Proof.Machine

/-! ### Which cause a command raises (R182 to R185, R187) -/

theorem passesTop_eq_true_iff {base size : Nat} : passesTop base size = true ↔ base + size > 2 ^ 32 :=
  decide_eq_true_iff

/-- The range test of PROCESS fires exactly off R222's RangesInMemory (R183). -/
theorem passesTop_test_iff {src dst len : Nat} :
    (decide (0 < len) && (passesTop src len || passesTop dst len)) = true ↔ ¬ RangesInMemory src dst len := by
  rw [Bool.and_eq_true, Bool.or_eq_true, decide_eq_true_iff, passesTop_eq_true_iff, passesTop_eq_true_iff]
  omega

/-- The distance test of PROCESS fires exactly off R222's EqualOrDisjoint; at LEN = 0 no two ranges overlap (R184). -/
theorem partialOverlap_test_iff {src dst len : Nat} :
    (decide (0 < len) && partialOverlap src dst len) = true ↔ ¬ EqualOrDisjoint src dst len := by
  rw [partialOverlap, distance, Bool.and_eq_true, Bool.and_eq_true, decide_eq_true_iff, decide_eq_true_iff,
    decide_eq_true_iff]
  omega

/-- The checks of PROCESS in their order, each the failure of one premise of R222 (R187). -/
theorem processFault_eq (src dst len : Nat) (s : State) :
    processFault src dst len s =
      if ¬ Inited s then some .notInit
      else if ¬ RangesInMemory src dst len then some .addrRange
      else if ¬ EqualOrDisjoint src dst len then some .overlap
      else if ¬ BelowLimit s len then some .ctrLimit
      else none := by
  simp only [processFault, passesTop_test_iff, partialOverlap_test_iff, Inited, BelowLimit, not_not, Config.counterTop,
    Nat.not_lt, ge_iff_le]

/-- A check that fires names a cause. -/
theorem ne_none_of_processFault {src dst len : Nat} {s : State} {c : Cause} (h : processFault src dst len s = some c) :
    c ≠ .none := by
  rw [processFault_eq] at h
  split_ifs at h <;> (cases h; exact nofun)

theorem processFault_eq_addrRange_iff {src dst len : Nat} {s : State} (hinit : Inited s) :
    processFault src dst len s = some .addrRange ↔ ¬ RangesInMemory src dst len := by
  rw [processFault_eq, if_neg (not_not.2 hinit)]
  refine Ne.ite_eq_left_iff ?_
  split_ifs <;> exact nofun

theorem processFault_eq_overlap_iff {src dst len : Nat} {s : State} (hinit : Inited s)
    (hrange : RangesInMemory src dst len) :
    processFault src dst len s = some .overlap ↔ ¬ EqualOrDisjoint src dst len := by
  rw [processFault_eq, if_neg (not_not.2 hinit), if_neg (not_not.2 hrange)]
  refine Ne.ite_eq_left_iff ?_
  split_ifs <;> exact nofun

theorem processFault_eq_ctrLimit_iff {src dst len : Nat} {s : State} (hinit : Inited s)
    (hrange : RangesInMemory src dst len) (hranges : EqualOrDisjoint src dst len) :
    processFault src dst len s = some .ctrLimit ↔ ¬ BelowLimit s len := by
  rw [processFault_eq, if_neg (not_not.2 hinit), if_neg (not_not.2 hrange), if_neg (not_not.2 hranges)]
  exact Ne.ite_eq_left_iff nofun

/-- INIT has one check (R183). -/
theorem eq_addrRange_of_initFault {keyptr ncptr : Nat} {c : Cause} (h : initFault keyptr ncptr = some c) :
    c = .addrRange := by
  unfold initFault at h
  split at h
  next => exact (Option.some.inj h).symm
  next => cases h

/-! ### A command raises the cause of its check (R186) -/

/-- A PROCESS that is not dropped raises a cause exactly when its checks answer it: one that completes keeps FAULT = 0. -/
theorem exec_process_eq_raiseFault_iff {src dst len : Nat} {s : State} {c : Cause} (hfault : NoFault s) :
    exec (.process src dst len) s = .next (raiseFault c s) ↔ processFault src dst len s = some c := by
  obtain ⟨hdropped, -⟩ | ⟨-, c', hcheck, hnext⟩ | ⟨-, hcheck, hnext⟩ := execProcess_cases src dst len s
  · cases hfault.symm.trans hdropped
  · rw [hcheck]
    constructor
    · intro hraised
      have hstate : raiseFault c' s = raiseFault c s := Host.Outcome.next.inj (hnext.symm.trans hraised)
      exact congrArg (some ∘ State.cause) hstate
    · rintro ⟨⟩
      exact hnext
  · rw [hcheck]
    constructor
    · intro hraised
      have hstate : processRun src dst len s = raiseFault c s := Host.Outcome.next.inj (hnext.symm.trans hraised)
      have hflag : s.fault = true := (processRun_fault src dst len s).symm.trans (congrArg State.fault hstate)
      cases hfault.symm.trans hflag
    · exact nofun

/-- An instruction either leaves FAULT = 0 or has raised a cause, and then changes FAULT and CAUSE only (R186). -/
theorem noFault_or_eq_raiseFault_of_exec {i : Instr} {s t : State} (hfault : NoFault s) (hexec : exec i s = .next t) :
    NoFault t ∨ ∃ c, c ≠ .none ∧ t = raiseFault c s := by
  cases hmicro : isMicro i with
  | true =>
    cases (exec_micro i s hmicro).symm.trans hexec
    exact .inl hfault
  | false =>
    cases i with
    | init keyptr ncptr =>
      obtain ⟨hdropped, -⟩ | ⟨-, c, hcheck, hnext⟩ | ⟨-, -, hnext⟩ := execInit_cases keyptr ncptr s
      · cases hfault.symm.trans hdropped
      · cases eq_addrRange_of_initFault hcheck
        exact .inr ⟨.addrRange, nofun, Host.Outcome.next.inj (hexec.symm.trans hnext)⟩
      · cases hnext.symm.trans hexec
        exact .inl hfault
    | process src dst len =>
      obtain ⟨hdropped, -⟩ | ⟨-, c, hcheck, hnext⟩ | ⟨-, -, hnext⟩ := execProcess_cases src dst len s
      · cases hfault.symm.trans hdropped
      · exact .inr ⟨c, ne_none_of_processFault hcheck, Host.Outcome.next.inj (hexec.symm.trans hnext)⟩
      · cases hnext.symm.trans hexec
        exact .inl ((processRun_fault src dst len s).trans hfault)
    | _ => cases hmicro

/-! ### A faulted engine (R188, R190) -/

/-- Legal or not, a descriptor issued to a faulted engine is dropped. -/
theorem issueCommand_of_faulted (D : BitVec 128) {s : State} (hfault : s.fault = true) :
    issueCommand D s = .next s := by
  unfold issueCommand
  cases hdec : decodeCommand D with
  | rejected r => exact if_pos hfault
  | instr i =>
    obtain rfl | rfl := decodeCommand_cases D i hdec
    · exact exec_init_of_faulted _ _ hfault
    · exact if_pos hfault

/-- A step on an issued legal descriptor is its instruction, with the interaction used up. -/
theorem step_issue_of_decode {D : BitVec 128} {i : Instr} {s : State} {rest : List HostAct}
    (hrun : s.seqRunning = false) (hhost : s.host = .issue D :: rest) (hdec : decodeCommand D = .instr i) :
    step s = exec i { s with host := rest } := by
  rw [step_host s _ rest hrun hhost, hostStep, issueCommand, hdec]

/-- The sequencer's turn moves the Block Core and may end the invocation; it reaches no other register (R110 of
spec/40_block_core.md). -/
theorem microTurn_frame {s t : State} (h : microTurn s = .next t) :
    ∃ bc running, t = { s with bc := bc, seqRunning := running } := by
  unfold microTurn at h
  split at h
  next => cases h
  next w _ =>
    split at h
    next => cases h
    next i hdec =>
      rw [exec_micro i s (decodeMicro_isMicro w i hdec)] at h
      cases h
      exact ⟨_, _, rfl⟩

/-- No interaction but the reset event leaves a fault or changes its cause. -/
theorem hostStep_keeps_fault {act : HostAct} {s t : State} (hfault : s.fault = true) (hact : act ≠ .reset)
    (h : hostStep act s = .next t) : t.fault = true ∧ t.cause = s.cause := by
  cases act with
  | reset => exact absurd rfl hact
  | issue D =>
    cases (issueCommand_of_faulted D hfault).symm.trans h
    exact ⟨hfault, rfl⟩
  | statusRead width offset =>
    obtain hrefused | ⟨r, n, hnext⟩ := statusRead_cases width offset s
    · cases hrefused.symm.trans h
    · cases hnext.symm.trans h
      exact ⟨hfault, rfl⟩
  | statusWrite width offset v => cases h
  | memRead a =>
    cases h
    exact ⟨hfault, rfl⟩
  | memWrite a v =>
    cases h
    exact ⟨hfault, rfl⟩

/-! ### The statements -/

/-- Settles O34: NOT_INIT is the first check of PROCESS and no check of INIT. -/
theorem notInitFault : Obligations.NotInitFault := by
  refine ⟨fun s src dst len => exec_process_of_uninit src dst len, fun s t keyptr ncptr hfault hexec ht => ?_⟩
  obtain ⟨hdropped, -⟩ | ⟨-, c, hcheck, hnext⟩ | ⟨-, -, hnext⟩ := execInit_cases keyptr ncptr s
  · cases hfault.symm.trans hdropped
  · cases eq_addrRange_of_initFault hcheck
    cases hnext.symm.trans hexec
    exact nofun
  · cases hnext.symm.trans hexec
    cases hfault.symm.trans ht

/-- Settles O35: an INIT whose buffers fit completes, and a PROCESS raises what its checks answer. -/
theorem addressRangeFault : Obligations.AddressRangeFault := by
  refine ⟨fun s keyptr ncptr hfault => ⟨fun hraised => ?init, exec_init_of_passes_top hfault⟩,
    fun s src dst len hfault hinit => ?process⟩
  case init =>
    by_contra hfits
    have hnext := exec_init_of_fits hfault (by omega : keyptr + 32 ≤ 2 ^ 32) (by omega : ncptr + 16 ≤ 2 ^ 32)
    have hflag := congrArg State.fault (Host.Outcome.next.inj (hnext.symm.trans hraised))
    cases hfault.symm.trans hflag
  case process =>
    have hcond : ¬ RangesInMemory src dst len ↔ 0 < len ∧ (src + len > 2 ^ 32 ∨ dst + len > 2 ^ 32) := by omega
    exact (exec_process_eq_raiseFault_iff hfault).trans ((processFault_eq_addrRange_iff hinit).trans hcond)

/-- Settles O36: the larger of the two addresses is a shared one. -/
theorem overlapFault : Obligations.OverlapFault := by
  intro s src dst len hfault hinit hrange
  have hraised : exec (.process src dst len) s = .next (raiseFault .overlap s) ↔ ¬ EqualOrDisjoint src dst len :=
    (exec_process_eq_raiseFault_iff hfault).trans (processFault_eq_overlap_iff hinit hrange)
  refine ⟨hraised.trans (by omega), hraised.trans ⟨fun hoverlap => ?_, fun ⟨hne, a, hsrc, hdst⟩ => by omega⟩⟩
  exact ⟨by omega, max src dst, by omega⟩

/-- Settles O38: the step is the command's, and the checks of `processFault_eq` stand in the rule's order. -/
theorem faultPriority : Obligations.FaultPriority := by
  intro s D rest hrun hhost
  have hstep : step s = issueCommand D { s with host := rest } := step_host s _ rest hrun hhost
  refine ⟨fun hfault => ?dropped, fun hfault hillegal => ?illegal, fun keyptr ncptr hfault hdec => ?init,
    fun src dst len hfault hdec => ?process⟩
  case dropped =>
    exact hstep.trans (issueCommand_of_faulted D hfault)
  case illegal =>
    cases hdec : decodeCommand D with
    | instr i => exact absurd hdec (hillegal i)
    | rejected r => exact hstep.trans (issueCommand_of_rejected hdec hfault)
  case init =>
    rw [step_issue_of_decode hrun hhost hdec]
    split_ifs with hrange
    · exact exec_init_of_passes_top hfault hrange
    · exact ⟨_, exec_init_of_fits hfault (by omega) (by omega), hfault⟩
  case process =>
    rw [step_issue_of_decode hrun hhost hdec]
    have hraise {c : Cause} := (exec_process_eq_raiseFault_iff (src := src) (dst := dst) (len := len) (c := c)
      (s := { s with host := rest }) hfault).2
    split_ifs with hphase hrange hoverlap hlimit
    · exact exec_process_of_uninit src dst len hfault hphase
    · exact hraise ((processFault_eq_addrRange_iff hphase).2 (by omega))
    · exact hraise ((processFault_eq_overlap_iff hphase (by omega)).2 (by omega))
    · exact hraise ((processFault_eq_ctrLimit_iff hphase (by omega) (by omega)).2 (Nat.not_lt.2 hlimit))
    · have hready : ProcessReady { s with host := rest } src dst len :=
        ⟨hfault, hphase, by omega, by omega, Nat.not_le.1 hlimit⟩
      exact ⟨_, exec_process_of_ready hready, (processRun_fault ..).trans hfault⟩

/-- Settles O39: raising a fault is the only way an instruction sets FAULT. -/
theorem faultEntryFrame : Obligations.FaultEntryFrame := by
  refine ⟨fun c s => rfl, fun i s t hfault hexec ht => ?_⟩
  obtain hclear | ⟨c, hc, rfl⟩ := noFault_or_eq_raiseFault_of_exec hfault hexec
  · cases hclear.symm.trans ht
  · exact ⟨rfl, hc⟩

/-- Settles O40: the drop of a descriptor, and status reads that do not look at FAULT but to report it. -/
theorem stickyFaultDropsCommands : Obligations.StickyFaultDropsCommands := by
  refine fun s rest hfault hrun => ⟨fun D hhost => ?drop, step_host s _ rest hrun, fun i hhost => ?counter⟩
  case drop =>
    exact (step_host s _ rest hrun hhost).trans (issueCommand_of_faulted D hfault)
  case counter =>
    obtain ⟨hinited, huninit⟩ := counterRegisters s i rest hrun hhost
    refine ⟨hinited, ?_⟩
    by_cases hphase : s.phase = .uninit
    · exact huninit hphase
    · exact ⟨_, s.draws, hinited hphase⟩

/-- Settles O41: a step is the sequencer's turn, a wait, or one interaction; and after reset PHASE is UNINIT. -/
theorem onlyResetLeavesFault : Obligations.OnlyResetLeavesFault := by
  refine ⟨fun s t hfault hnext => ?keeps, fun s rest hrun hhost => ?reset⟩
  case keeps =>
    cases hrun : s.seqRunning with
    | true =>
      rw [step, if_pos hrun] at hnext
      obtain ⟨bc, running, rfl⟩ := microTurn_frame hnext
      exact .inl ⟨hfault, rfl⟩
    | false =>
      cases hhost : s.host with
      | nil =>
        cases (step_idle s hrun hhost).symm.trans hnext
        exact .inl ⟨hfault, rfl⟩
      | cons act rest =>
        by_cases hact : act = .reset
        · exact .inr ⟨rfl, rest, by rw [hact]⟩
        · rw [step_host s act rest hrun hhost] at hnext
          exact .inl (hostStep_keeps_fault (s := { s with host := rest }) hfault hact hnext)
  case reset =>
    exact ⟨_, step_host s _ rest hrun hhost, rfl, rfl,
      fun src dst len => ⟨_, exec_process_of_uninit src dst len rfl rfl, rfl⟩⟩

end Sys2Proof.Machine
end

section
/-! The reset event as a step of the machine (R210 of spec/70_reset_and_hazards.md). -/

namespace Sys2Proof.Machine

/-- Between commands, a step that meets a reset interaction uses it up and applies the reset event. -/
theorem step_reset {s : State} {rest : List HostAct} (hrun : s.seqRunning = false) (hhost : s.host = .reset :: rest) :
    step s = .next (resetEvent { s with host := rest }) :=
  step_host s .reset rest hrun hhost

/-- Settles O48: the step is the reset event, and the laws of `resetEvent` name each field it clears or keeps. -/
theorem resetEventEffect : Obligations.ResetEventEffect := by
  intro s rest hrun hhost
  exact ⟨_, step_reset hrun hhost, resetEvent_phase _, resetEvent_fault _, resetEvent_cause _, resetEvent_rem _,
    resetEvent_mem _, resetEvent_host _, resetEvent_resp _, (resetEvent_seqRunning _).trans hrun⟩

end Sys2Proof.Machine
end

section
/-! Decoder and encoder as inverses of each other on both levels (sections 2, 4 and 5 of spec/30_encoding.md). -/

namespace Sys2Proof.Machine

/-! ### Descriptors (R82 to R84) -/

theorem toNat_ofNat_of_fitsWord {n : Nat} (h : fitsWord n = true) : (BitVec.ofNat 32 n).toNat = n := by
  rw [fitsWord, decide_eq_true_iff] at h
  rw [BitVec.toNat_ofNat, Nat.mod_eq_of_lt h]

theorem fitsWord_toNat (w : Word) : fitsWord w.toNat = true :=
  decide_eq_true w.isLt

theorem cmdA_descriptor (w0 w1 w2 w3 : Word) : cmdA (descriptor w0 w1 w2 w3) = w1.toNat := by
  rw [cmdA_eq, toNat_descriptor]
  omega

theorem cmdB_descriptor (w0 w1 w2 w3 : Word) : cmdB (descriptor w0 w1 w2 w3) = w2.toNat := by
  rw [cmdB_eq, toNat_descriptor]
  omega

theorem cmdL_descriptor (w0 w1 w2 w3 : Word) : cmdL (descriptor w0 w1 w2 w3) = w3.toNat := by
  rw [cmdL_eq, toNat_descriptor]
  omega

theorem initRow_descriptor_iff (w0 w1 w2 w3 : Word) : InitRow (descriptor w0 w1 w2 w3) ↔ w0 = 1 ∧ w3 = 0 := by
  rw [InitRow, toNat_descriptor, ← BitVec.toNat_inj, ← BitVec.toNat_inj]
  simp only [BitVec.ofNat_eq_ofNat, BitVec.toNat_ofNat]
  omega

theorem processRow_descriptor_iff (w0 w1 w2 w3 : Word) : ProcessRow (descriptor w0 w1 w2 w3) ↔ w0 = 2 := by
  rw [ProcessRow, toNat_descriptor, ← BitVec.toNat_inj]
  simp only [BitVec.ofNat_eq_ofNat, BitVec.toNat_ofNat]
  omega

/-- The first word of a descriptor is OP and RSV0 together; the other three are A, B and L (R82). -/
theorem descriptor_fields (D : BitVec 128) :
    descriptor (D.extractLsb' 0 32) (BitVec.ofNat 32 (cmdA D)) (BitVec.ofNat 32 (cmdB D)) (BitVec.ofNat 32 (cmdL D)) =
      D := by
  conv_rhs => rw [← descriptor_words D]
  simp only [cmdA, cmdB, cmdL, BitVec.ofNat_toNat, BitVec.setWidth_eq]

theorem encode_init_of_initRow {D : BitVec 128} (h : InitRow D) : encode (.init (cmdA D) (cmdB D)) = .command D := by
  have hD := descriptor_fields D
  obtain ⟨hop, hlen⟩ := (initRow_descriptor_iff ..).1 (hD.symm ▸ h)
  rw [hop, hlen] at hD
  exact congrArg Code.command hD

theorem encode_process_of_processRow {D : BitVec 128} (h : ProcessRow D) :
    encode (.process (cmdA D) (cmdB D) (cmdL D)) = .command D := by
  have hD := descriptor_fields D
  have hop := (processRow_descriptor_iff ..).1 (hD.symm ▸ h)
  rw [hop] at hD
  exact congrArg Code.command hD

/-- What the decoder reads from a descriptor encodes to that descriptor. -/
theorem encode_of_decodeCommand {D : BitVec 128} {i : Instr} (h : decodeCommand D = .instr i) :
    encode i = .command D := by
  obtain ⟨hrow, hdec⟩ | ⟨hrow, hdec⟩ | ⟨-, -, r, hrejected⟩ := decodeCommand_rows D
  · cases hdec.symm.trans h
    exact encode_init_of_initRow hrow
  · cases hdec.symm.trans h
    exact encode_process_of_processRow hrow
  · cases hrejected.symm.trans h

/-! ### What decodes is well-formed -/

/-- The operands of a decoded descriptor are words of it (R85). -/
theorem wf_of_decodeCommand {D : BitVec 128} {i : Instr} (h : decodeCommand D = .instr i) : i.wf = true := by
  obtain rfl | rfl := decodeCommand_cases D i h
  · simp only [Instr.wf, cmdA, cmdB, fitsWord_toNat, Bool.and_self]
  · simp only [Instr.wf, cmdA, cmdB, cmdL, fitsWord_toNat, Bool.and_self]

/-- A micro-op has no operand to bound. -/
theorem wf_of_isMicro {i : Instr} (h : isMicro i = true) : i.wf = true := by
  cases i with
  | init keyptr ncptr => cases h
  | process src dst len => cases h
  | _ => rfl

/-! ### The statements -/

/-- Settles O6: a descriptor of INIT or PROCESS is on its row and its operands are its words; the eleven micro-op words
are decoded one by one. -/
theorem decodeOfEncode : Obligations.DecodeOfEncode := by
  intro i hwf
  cases i with
  | init keyptr ncptr =>
    obtain ⟨hkey, hnonce⟩ : fitsWord keyptr = true ∧ fitsWord ncptr = true := by simpa [Instr.wf] using hwf
    rw [encode, decode, decodeCommand_of_initRow ((initRow_descriptor_iff ..).2 ⟨rfl, rfl⟩), cmdA_descriptor,
      cmdB_descriptor, toNat_ofNat_of_fitsWord hkey, toNat_ofNat_of_fitsWord hnonce]
  | process src dst len =>
    obtain ⟨⟨hsrc, hdst⟩, hlen⟩ : (fitsWord src = true ∧ fitsWord dst = true) ∧ fitsWord len = true := by
      simpa [Instr.wf] using hwf
    rw [encode, decode, decodeCommand_of_processRow ((processRow_descriptor_iff ..).2 rfl), cmdA_descriptor,
      cmdB_descriptor, cmdL_descriptor, toNat_ofNat_of_fitsWord hsrc, toNat_ofNat_of_fitsWord hdst,
      toNat_ofNat_of_fitsWord hlen]
  | _ => rfl

/-- Settles O7: word by word of the two levels. -/
theorem encodeOfDecode : Obligations.EncodeOfDecode := by
  intro c i hdec
  cases c with
  | command D => exact ⟨wf_of_decodeCommand hdec, encode_of_decodeCommand hdec⟩
  | micro w => exact ⟨wf_of_isMicro (decodeMicro_isMicro w i hdec), encode_of_decodeMicro hdec⟩

/-- Settles O8: six closed words. -/
theorem listedWordsDecode : Obligations.ListedWordsDecode := by
  unfold Obligations.ListedWordsDecode
  decide

end Sys2Proof.Machine
end

section
/-! The Block Core computed: rotation, quarter-rounds on disjoint words, and the sequencer's 83 turns as `permute`
(sections 4 to 7 of spec/40_block_core.md). -/

namespace Sys2Proof.Machine

/-! ### The rotation (R8 of spec/00_scope.md) -/

/-- The bits above position 32 - r go down, the others up: below 2^32 the shifted part keeps its r low bits 0. -/
theorem toNat_rotl32 {r : Nat} (hr : r < 32) (v : Word) :
    (rotl32 v r).toNat = v.toNat * 2 ^ r % 2 ^ 32 + v.toNat / 2 ^ (32 - r) := by
  have hpow : 2 ^ 32 = 2 ^ (32 - r) * 2 ^ r := by rw [← Nat.pow_add, Nat.sub_add_cancel hr.le]
  have hup : v.toNat * 2 ^ r % 2 ^ 32 = (v.toNat % 2 ^ (32 - r)) <<< r := by
    rw [hpow, Nat.mul_mod_mul_right, Nat.shiftLeft_eq]
  have hdown : v.toNat / 2 ^ (32 - r) < 2 ^ r := Nat.div_lt_of_lt_mul (hpow ▸ v.isLt)
  rw [rotl32, BitVec.toNat_rotateLeft, Nat.mod_eq_of_lt hr, Nat.shiftLeft_eq, Nat.shiftRight_eq_div_pow, hup,
    Nat.shiftLeft_add_eq_or_of_lt hdown]

/-- Settles O10: the two parts of the formula are the quotient and the remainder of the word by 2^(32 - r). -/
theorem rotationFormula : Obligations.RotationFormula := by
  refine fun v r _ hr => ⟨toNat_rotl32 hr v, fun w hrot => BitVec.eq_of_toNat_eq ?_⟩
  have hpow : 2 ^ 32 = 2 ^ (32 - r) * 2 ^ r := by rw [← Nat.pow_add, Nat.sub_add_cancel hr.le]
  have hparts (u : Word) : (rotl32 u r).toNat % 2 ^ r = u.toNat / 2 ^ (32 - r) ∧
      (rotl32 u r).toNat / 2 ^ r = u.toNat % 2 ^ (32 - r) := by
    have hdown : u.toNat / 2 ^ (32 - r) < 2 ^ r := Nat.div_lt_of_lt_mul (hpow ▸ u.isLt)
    rw [toNat_rotl32 hr, hpow, Nat.mul_mod_mul_right, Nat.add_comm]
    exact ⟨by rw [Nat.add_mul_mod_self_right, Nat.mod_eq_of_lt hdown],
      by rw [Nat.add_mul_div_right _ _ (Nat.two_pow_pos r), Nat.div_eq_of_lt hdown, Nat.zero_add]⟩
  obtain ⟨hvq, hvr⟩ := hparts v
  obtain ⟨hwq, hwr⟩ := hparts w
  rw [← Nat.div_add_mod v.toNat (2 ^ (32 - r)), ← Nat.div_add_mod w.toNat (2 ^ (32 - r)), ← hvq, ← hvr, ← hwq, ← hwr,
    hrot]

/-! ### Quarter-rounds on disjoint words (section 6 (a)) -/

/-- A quarter-round's four results depend on its four words only. -/
theorem quarterRound_getElem_congr {a b c d i : Fin 16} (hnodup : [a, b, c, d].Nodup) (hi : i ∈ [a, b, c, d])
    {X Y : Vector Word 16} (h : ∀ j ∈ [a, b, c, d], X[j] = Y[j]) :
    (quarterRound a b c d X)[i] = (quarterRound a b c d Y)[i] := by
  have hwords := quarterRound_getElem hnodup X
  rw [h a (by simp), h b (by simp), h c (by simp), h d (by simp), ← quarterRound_getElem hnodup Y] at hwords
  simp only [Prod.mk.injEq] at hwords
  obtain ⟨ha, hb, hc, hd⟩ := hwords
  simp only [List.mem_cons, List.not_mem_nil, or_false] at hi
  obtain rfl | rfl | rfl | rfl := hi
  · exact ha
  · exact hb
  · exact hc
  · exact hd

/-- Off the second tuple's words the order of the two makes no difference. -/
theorem quarterRound_comm_getElem {a b c d e f g h i : Fin 16} (hnodup : [a, b, c, d].Nodup)
    (hdisjoint : List.Disjoint [a, b, c, d] [e, f, g, h]) (hi : i ∉ [e, f, g, h]) (X : Vector Word 16) :
    (quarterRound a b c d (quarterRound e f g h X))[i] = (quarterRound e f g h (quarterRound a b c d X))[i] := by
  rw [quarterRound_getElem_other hi]
  by_cases hmem : i ∈ [a, b, c, d]
  · exact quarterRound_getElem_congr hnodup hmem fun j hj => quarterRound_getElem_other (hdisjoint hj) X
  · rw [quarterRound_getElem_other hmem, quarterRound_getElem_other hi, quarterRound_getElem_other hmem]

/-- Settles O19: word by word, every word being off one of the two tuples. -/
theorem disjointQuarterRoundsCommute : Obligations.DisjointQuarterRoundsCommute := by
  intro a b c d e f g h X hnodup
  obtain ⟨hfirst, hsecond, hdisjoint⟩ := List.nodup_append'.1 (show ([a, b, c, d] ++ [e, f, g, h]).Nodup from hnodup)
  refine Vector.ext fun i hi => ?_
  by_cases hmem : (⟨i, hi⟩ : Fin 16) ∈ [e, f, g, h]
  · exact (quarterRound_comm_getElem hsecond hdisjoint.symm (i := ⟨i, hi⟩) (fun hmem' => hdisjoint hmem' hmem) X).symm
  · exact quarterRound_comm_getElem hfirst hdisjoint hmem X

/-! ### Zeros (section 7 (a)) -/

theorem doubleRound_zeros : doubleRound (Vector.replicate 16 0) = Vector.replicate 16 0 := by
  have hzero (a b c d : Fin 16) :
      quarterRound a b c d (Vector.replicate 16 0) = Vector.replicate 16 0 :=
    quarterRound_of_zero (by simp) (by simp) (by simp) (by simp)
  simp only [doubleRound, hzero]

theorem doubleRounds_zeros (n : Nat) : doubleRounds n (Vector.replicate 16 0) = Vector.replicate 16 0 := by
  induction n with
  | zero => rfl
  | succ n ih => rw [doubleRounds, doubleRound_zeros, ih]

/-- Settles O20: quarter-rounds keep zeros, and the bytes of a zero word are zero. -/
theorem permuteOfZeros : Obligations.PermuteOfZeros := by
  have hsum : addWords (Vector.replicate 16 0) (Vector.replicate 16 0) = Vector.replicate 16 0 := by decide
  have hbyte (j : Nat) : byteOf 0#32 j = 0 := BitVec.eq_of_toNat_eq (by simp)
  rw [Obligations.PermuteOfZeros, permute, doubleRounds_zeros, hsum, serialise]
  exact Vector.ext fun i hi => by simp [hbyte]

/-! ### The sequencer over the ROM (R118) -/

/-- The micro-ops of one iteration (R93 of spec/30_encoding.md). -/
def iterationOps : List Instr := [.qrCol0, .qrCol1, .qrCol2, .qrCol3, .qrDiag0, .qrDiag1, .qrDiag2, .qrDiag3]

/-- The micro-program as micro-ops (R92 of spec/30_encoding.md). -/
def romOps : List Instr := [.ldx] ++ (List.replicate 10 iterationOps).flatten ++ [.ffw, .ser]

/-- Micro-ops one after the other, with the advance of upc after each. -/
def runMicroOps (ops : List Instr) (b : BlockCore) : BlockCore := ops.foldl (fun b i => (microEffect i b).advance) b

theorem runMicroOps_append (ops ops' : List Instr) (b : BlockCore) :
    runMicroOps (ops ++ ops') b = runMicroOps ops' (runMicroOps ops b) :=
  List.foldl_append

theorem romOps_length : romOps.length = 83 := by decide

theorem rom_map_decodeMicro : rom.map decodeMicro = romOps.map .instr := by decide

/-- A turn inside the ROM moves upc to the next entry. -/
theorem seqTurn_upc {b : BlockCore} (hupc : b.upc.toNat ≤ 82) : (seqTurn b).upc.toNat = b.upc.toNat + 1 := by
  obtain ⟨w, i, hw, hdec, -⟩ := rom_entry b.upc.toNat hupc
  have hone : (1 : BitVec 7).toNat = 1 := rfl
  simp only [seqTurn, hw, hdec, BlockCore.advance_upc, (microEffect_frame i b).2, BitVec.toNat_add, hone]
  omega

/-- The turns left in the ROM run the micro-ops left in it. -/
theorem seqTurns_eq_runMicroOps {ops : List Instr} {b : BlockCore}
    (h : (rom.drop b.upc.toNat).map decodeMicro = ops.map .instr) : seqTurns ops.length b = runMicroOps ops b := by
  induction ops generalizing b with
  | nil => rfl
  | cons i ops ih =>
    obtain ⟨w, rest, hdrop, hdec, hrest⟩ := List.map_eq_cons_iff.1 h
    have hlt : b.upc.toNat < rom.length := by
      by_contra hge
      rw [List.drop_eq_nil_of_le (Nat.not_lt.1 hge)] at hdrop
      cases hdrop
    rw [List.drop_eq_getElem_cons hlt, List.cons.injEq] at hdrop
    obtain ⟨hw, hdrop⟩ := hdrop
    have hturn : seqTurn b = (microEffect i b).advance := by
      simp only [seqTurn, List.getElem?_eq_getElem hlt, hw, hdec]
    have hupc : (seqTurn b).upc.toNat = b.upc.toNat + 1 := seqTurn_upc (by rw [rom_length] at hlt; omega)
    rw [List.length_cons, seqTurns, ih (by rw [hupc, hdrop, hrest]), hturn]
    rfl

theorem runMicroOps_iterationOps (b : BlockCore) :
    runMicroOps iterationOps b = { b with x := doubleRound b.x, upc := b.upc + 8 } := by
  have hupc : b.upc + 8 = b.upc + 1 + 1 + 1 + 1 + 1 + 1 + 1 + 1 := by simp [BitVec.add_assoc]
  simp only [runMicroOps, iterationOps, List.foldl, microEffect, BlockCore.qr, BlockCore.advance, doubleRound, hupc]

theorem runMicroOps_iterations (n : Nat) (b : BlockCore) :
    runMicroOps (List.replicate n iterationOps).flatten b =
      { b with x := doubleRounds n b.x, upc := b.upc + BitVec.ofNat 7 (8 * n) } := by
  induction n generalizing b with
  | zero => simp [runMicroOps, doubleRounds]
  | succ n ih =>
    have hupc : b.upc + 8 + BitVec.ofNat 7 (8 * n) = b.upc + BitVec.ofNat 7 (8 * (n + 1)) := by
      rw [BitVec.add_assoc, BitVec.add_comm 8, Nat.mul_succ, BitVec.ofNat_add]
      rfl
    rw [List.replicate_succ, List.flatten_cons, runMicroOps_append, runMicroOps_iterationOps, ih, hupc, doubleRounds]

/-- The whole micro-program from upc = 0. -/
theorem runMicroOps_romOps {b : BlockCore} (hupc : b.upc = 0) :
    runMicroOps romOps b =
      { inp := b.inp, x := addWords (doubleRounds 10 b.inp) b.inp, out := permute b.inp, upc := 83 } := by
  have hldx : runMicroOps [.ldx] b = { b with x := b.inp, upc := 1 } := by
    simp [runMicroOps, microEffect, BlockCore.ldx, BlockCore.advance, hupc]
  have hend : (1 : BitVec 7) + BitVec.ofNat 7 (8 * 10) + 1 + 1 = 83 := by decide
  rw [romOps, runMicroOps_append, runMicroOps_append, hldx, runMicroOps_iterations, permute]
  simp only [runMicroOps, List.foldl, microEffect, BlockCore.ffw, BlockCore.ser, BlockCore.advance, hend]

/-- 83 turns from upc = 0 (R118), whether counted as an invocation or as steps of the machine. -/
theorem seqTurns_of_upc_zero {b : BlockCore} (hupc : b.upc = 0) :
    seqTurns 83 b =
      { inp := b.inp, x := addWords (doubleRounds 10 b.inp) b.inp, out := permute b.inp, upc := 83 } := by
  have hdrop : (rom.drop b.upc.toNat).map decodeMicro = romOps.map .instr := by
    rw [hupc, BitVec.ofNat_eq_ofNat, BitVec.toNat_zero, List.drop_zero, rom_map_decodeMicro]
  calc seqTurns 83 b = seqTurns romOps.length b := congrArg (seqTurns · b) romOps_length.symm
    _ = runMicroOps romOps b := seqTurns_eq_runMicroOps hdrop
    _ = _ := runMicroOps_romOps hupc

/-- Settles O17: an invocation sets upc to 0 and takes the 83 turns. -/
theorem sequencerComputesPermute : Obligations.SequencerComputesPermute := by
  intro b
  unfold runBlockCore
  exact seqTurns_of_upc_zero rfl

/-! ### The sequencer as steps of the machine -/

/-- A step of the running sequencer is one turn, and it runs on unless that was ROM[82]. -/
theorem step_eq_seqTurn {s : State} (hrun : s.seqRunning = true) (hupc : s.bc.upc.toNat ≤ 82) :
    step s = .next { s with bc := seqTurn s.bc, seqRunning := decide (s.bc.upc.toNat + 1 < 83) } := by
  obtain ⟨w, i, hw, hdec, -, hstep⟩ := step_running s hrun hupc
  rw [hstep, finishMicroOp, rom_length]
  simp only [seqTurn, hw, hdec, (microEffect_frame i s.bc).2]

theorem run_succ_of_step {M : Host.Core} {n : Nat} {s t : M.State} (h : M.step s = .next t) :
    M.run (n + 1) s = M.run n t := by
  rw [Host.Core.run, h]

/-- As many steps as are left in the ROM, or fewer, are as many turns. -/
theorem run_eq_seqTurns {n : Nat} {s : State} (hrun : s.seqRunning = decide (s.bc.upc.toNat < 83))
    (hn : s.bc.upc.toNat + n ≤ 83) :
    core.run n s =
      .next { s with bc := seqTurns n s.bc, seqRunning := decide (s.bc.upc.toNat + n < 83) } := by
  induction n generalizing s with
  | zero =>
    rw [Nat.add_zero, ← hrun]
    rfl
  | succ n ih =>
    have hupc : s.bc.upc.toNat ≤ 82 := by omega
    have hnext := seqTurn_upc hupc
    have hstep : core.step s = .next { s with bc := seqTurn s.bc, seqRunning := decide (s.bc.upc.toNat + 1 < 83) } :=
      step_eq_seqTurn (hrun.trans (by simpa using by omega)) hupc
    refine (run_succ_of_step hstep).trans ((ih (by simp only [hnext]) (by simp only [hnext]; omega)).trans ?_)
    simp only [hnext, seqTurns, Nat.add_assoc, Nat.add_comm 1 n]

/-- Settles O18: 83 steps are 83 turns. -/
theorem microStepsComputePermute : Obligations.MicroStepsComputePermute := by
  intro s hrun hupc
  have hzero : s.bc.upc.toNat = 0 := congrArg BitVec.toNat hupc
  have hsteps := run_eq_seqTurns (n := 83) (s := s) (by rw [hrun, hzero]; rfl) (by omega)
  rw [hsteps, hzero, seqTurns_of_upc_zero hupc]
  rfl

end Sys2Proof.Machine
end

section
/-! The counter and the stream position of a PROCESS (section 3 of spec/41_stream_engine.md; R31 of spec/10_state.md):
where a PROCESS that stays below the counter's limit leaves the counter, REM and BUF. -/

namespace Sys2Proof.Machine

/-! ### INCR (R146) -/

@[simp] theorem incrCn_0 (cn : Vector Word 4) : (incrCn cn)[0] = cn[0] + 1 := by
  unfold incrCn
  split <;> simp

theorem incrCn_1 (cn : Vector Word 4) : (incrCn cn)[1] = if cn[0] + 1 = 0 then cn[1] + 1 else cn[1] := by
  unfold incrCn
  split <;> simp

theorem ctr64_lt (cn : Vector Word 4) : ctr64 cn < 2 ^ 64 := by
  unfold ctr64
  omega

/-- The carry of CN[0] is the carry of the base 2^32 digit. -/
theorem ctr64_incrCn {cn : Vector Word 4} (h : ctr64 cn + 1 < 2 ^ 64) : ctr64 (incrCn cn) = ctr64 cn + 1 := by
  have hone : (1 : Word).toNat = 1 := rfl
  have hzero : cn[0] + 1 = 0 ↔ (cn[0].toNat + 1) % 2 ^ 32 = 0 := by
    rw [← BitVec.toNat_inj, BitVec.toNat_add, hone]
    rfl
  unfold ctr64 at h ⊢
  rw [incrCn_0, incrCn_1, BitVec.toNat_add, hone]
  split
  next hcarry =>
    rw [hzero] at hcarry
    rw [BitVec.toNat_add, hone]
    omega
  next hcarry =>
    rw [hzero] at hcarry
    omega

theorem ctr64_incrTimes {n : Nat} {cn : Vector Word 4} (h : ctr64 cn + n < 2 ^ 64) :
    ctr64 (incrTimes n cn) = ctr64 cn + n := by
  induction n generalizing cn with
  | zero => rw [incrTimes, Nat.add_zero]
  | succ n ih =>
    have hnext : ctr64 (incrCn cn) = ctr64 cn + 1 := ctr64_incrCn (by omega)
    rw [incrTimes, ih (by omega), hnext]
    omega

theorem counterWords_eq {n : Nat} {cn : Vector Word 4} (hlow : BitVec.ofNat 32 n = cn[0])
    (hhigh : BitVec.ofNat 32 (n / 2 ^ 32) = cn[1]) : counterWords n cn[2] cn[3] = cn := by
  rw [counterWords, hlow, hhigh]
  refine Vector.ext fun i hi => ?_
  obtain rfl | rfl | rfl | rfl : i = 0 ∨ i = 1 ∨ i = 2 ∨ i = 3 := by omega
  all_goals rfl

/-- The two counter words are the digits of the counter. -/
theorem counterWords_ctr64 (cn : Vector Word 4) : counterWords (ctr64 cn) cn[2] cn[3] = cn := by
  apply counterWords_eq
  case hlow =>
    apply BitVec.eq_of_toNat_eq
    rw [BitVec.toNat_ofNat, ctr64]
    omega
  case hhigh =>
    apply BitVec.eq_of_toNat_eq
    rw [BitVec.toNat_ofNat, ctr64]
    omega

theorem cn_eq_of_ctr64_eq {cn cn' : Vector Word 4} (hctr : ctr64 cn = ctr64 cn') (h2 : cn[2] = cn'[2])
    (h3 : cn[3] = cn'[3]) : cn = cn' := by
  rw [← counterWords_ctr64 cn, hctr, h2, h3, counterWords_ctr64]

/-! ### What a PROCESS leaves in the counter and in REM -/

@[simp] theorem processRun_k (src dst len : Nat) (s : State) : (processRun src dst len s).k = s.k := by
  rw [processRun_frame]

@[simp] theorem drainCn_2 (s : State) (len : Nat) : (drainCn s len)[2] = s.cn[2] := by
  unfold drainCn
  split <;> simp

@[simp] theorem drainCn_3 (s : State) (len : Nat) : (drainCn s len)[3] = s.cn[3] := by
  unfold drainCn
  split <;> simp

@[simp] theorem processRun_cn_2 (src dst len : Nat) (s : State) : (processRun src dst len s).cn[2] = s.cn[2] := by
  simp only [processRun_cn, incrTimes_2, drainCn_2]

@[simp] theorem processRun_cn_3 (src dst len : Nat) (s : State) : (processRun src dst len s).cn[3] = s.cn[3] := by
  simp only [processRun_cn, incrTimes_3, drainCn_3]

/-- The drain step's INCR as a number. -/
theorem ctr64_drainCn {s : State} {len : Nat} (h : BelowLimit s len) :
    ctr64 (drainCn s len) = ctr64 s.cn + if drained s.rem.toNat len then 1 else 0 := by
  unfold BelowLimit incCount at h
  unfold drainCn
  split
  next hdrained => exact ctr64_incrCn (by rw [if_pos hdrained] at h; omega)
  next => exact (Nat.add_zero _).symm

/-- The number of INCRs is INC(REM, LEN) (R147). -/
theorem ctr64_processRun {s : State} {len : Nat} (src dst : Nat) (h : BelowLimit s len) :
    ctr64 (processRun src dst len s).cn = ctr64 s.cn + incCount s.rem.toNat len := by
  have hdrain := ctr64_drainCn h
  unfold BelowLimit incCount at h
  rw [processRun_cn, ctr64_incrTimes (by rw [hdrain, drainCount]; omega), hdrain, incCount, drainCount]
  omega

/-- REM as a number: what the drain step left, or what the tail did not use. -/
theorem processRun_rem_toNat (src dst len : Nat) (s : State) :
    (processRun src dst len s).rem.toNat =
      if len < s.rem.toNat then s.rem.toNat - len else (64 - (len - s.rem.toNat) % 64) % 64 := by
  have hlt : s.rem.toNat < 64 := s.rem.isLt
  rw [processRun_rem, drainCount]
  split
  next hnone =>
    rw [BitVec.toNat_sub, BitVec.toNat_ofNat]
    split <;> omega
  next htail =>
    rw [BitVec.toNat_ofNat]
    split <;> omega

/-! ### The stream position (R31) -/

/-- Once per block the position passes a multiple of 64: INC counts those (R147). -/
theorem ctr64_add_incCount (s : State) (len : Nat) :
    ctr64 s.cn + incCount s.rem.toNat len = (streamPos s + len) / 64 := by
  have hlt : s.rem.toNat < 64 := s.rem.isLt
  unfold incCount drained streamPos
  by_cases hpos : 0 < s.rem.toNat <;> by_cases hle : s.rem.toNat ≤ len <;> simp [hpos, hle] <;> omega

/-- The counter and REM are the quotient and the rest of the position (R31). -/
theorem ctr64_eq_streamPos_div (s : State) : ctr64 s.cn = streamPos s / 64 := by
  unfold streamPos
  omega

theorem rem_toNat_eq_streamPos_mod (s : State) : s.rem.toNat = (64 - streamPos s % 64) % 64 := by
  have hlt : s.rem.toNat < 64 := s.rem.isLt
  unfold streamPos
  omega

/-- The position is below that of the counter's limit. -/
theorem streamPos_lt (s : State) : streamPos s < 2 ^ 70 := by
  have hlt := ctr64_lt s.cn
  unfold streamPos
  omega

theorem belowLimit_iff (s : State) (len : Nat) : BelowLimit s len ↔ streamPos s + len < 2 ^ 70 := by
  rw [BelowLimit, ctr64_add_incCount]
  omega

/-- A PROCESS below the limit advances the position by its length. -/
theorem streamPos_processRun {s : State} {len : Nat} (src dst : Nat) (h : BelowLimit s len) :
    streamPos (processRun src dst len s) = streamPos s + len := by
  have hlt : s.rem.toNat < 64 := s.rem.isLt
  have hctr := ctr64_processRun src dst h
  rw [ctr64_add_incCount] at hctr
  have hrem := processRun_rem_toNat src dst len s
  rw [streamPos, hctr, hrem]
  unfold streamPos
  split <;> omega

/-- Two states at one position of one stream have the same counter words and REM. -/
theorem cn_eq_of_streamPos_eq {s t : State} (hpos : streamPos s = streamPos t) (h2 : s.cn[2] = t.cn[2])
    (h3 : s.cn[3] = t.cn[3]) : s.cn = t.cn :=
  cn_eq_of_ctr64_eq (by rw [ctr64_eq_streamPos_div, hpos, ← ctr64_eq_streamPos_div]) h2 h3

theorem rem_eq_of_streamPos_eq {s t : State} (hpos : streamPos s = streamPos t) : s.rem = t.rem :=
  BitVec.eq_of_toNat_eq (by rw [rem_toNat_eq_streamPos_mod, hpos, ← rem_toNat_eq_streamPos_mod])

/-! ### The premises of R222, read off an outcome -/

theorem processReady_of_processFault {s : State} {src dst len : Nat} (hfault : NoFault s)
    (h : processFault src dst len s = none) : ProcessReady s src dst len := by
  rw [processFault_eq] at h
  split_ifs at h with hinit hrange hranges hlimit
  exact ⟨hfault, hinit, hrange, hranges, hlimit⟩

theorem belowLimit_of_ready {s : State} {src dst len : Nat} (h : ProcessReady s src dst len) : BelowLimit s len := by
  obtain ⟨-, -, -, -, hlimit⟩ := h
  exact hlimit

/-- Every way PROCESS can end, in the terms of R222: dropped, faulted, or run under its premises. -/
theorem exec_process_outcomes (src dst len : Nat) (s : State) :
    (s.fault = true ∧ exec (.process src dst len) s = .next s) ∨
    (NoFault s ∧ ∃ c, processFault src dst len s = some c ∧
      exec (.process src dst len) s = .next (raiseFault c s)) ∨
    (ProcessReady s src dst len ∧ exec (.process src dst len) s = .next (processRun src dst len s)) := by
  obtain hdropped | hfaulted | ⟨hfault, hcheck, hnext⟩ := execProcess_cases src dst len s
  · exact .inl hdropped
  · exact .inr (.inl hfaulted)
  · exact .inr (.inr ⟨processReady_of_processFault hfault hcheck, hnext⟩)

theorem exec_process_of_faulted {s : State} (src dst len : Nat) (hfault : s.fault = true) :
    exec (.process src dst len) s = .next s :=
  if_pos hfault

theorem processReady_of_exec {s t : State} {src dst len : Nat} (hfault : NoFault s)
    (hexec : exec (.process src dst len) s = .next t) (ht : NoFault t) : ProcessReady s src dst len := by
  obtain ⟨hdropped, -⟩ | ⟨-, c, -, hnext⟩ | ⟨hready, -⟩ := exec_process_outcomes src dst len s
  · cases hfault.symm.trans hdropped
  · cases hnext.symm.trans hexec
    cases ht
  · exact hready

/-- Settles O22: INCR word by word and as a number; a PROCESS that raises no fault ran below the limit. -/
theorem counterIncrement : Obligations.CounterIncrement := by
  refine ⟨fun cn => ⟨incrCn_0 cn, incrCn_1 cn, incrCn_2 cn, incrCn_3 cn⟩, fun cn => ctr64_incrCn, fun s => rfl,
    fun s t src dst len hfault hexec ht => ?process, by decide⟩
  have hlimit := belowLimit_of_ready (processReady_of_exec hfault hexec ht)
  rw [eq_processRun_of_exec hfault hexec ht]
  exact ⟨hlimit, ctr64_processRun src dst hlimit⟩

end Sys2Proof.Machine
end

section
/-! The keystream a PROCESS uses, and its three steps on memory (sections 4 and 6 of spec/41_stream_engine.md): the
block in OUT is `permute` of SIGMA, K and CN, so every byte used is a byte of the session's stream. -/

namespace Sys2Proof.Machine

/-! ### One block (R148) -/

/-- The block depends on K and CN alone, the Block Core's result being `permute` of IN (R118). -/
theorem runBlockCore_out (b : BlockCore) : (runBlockCore b).out = permute b.inp := by
  rw [sequencerComputesPermute b]

theorem blockBytes_eq (bc : BlockCore) (k : Vector Word 8) (cn : Vector Word 4) :
    blockBytes bc k cn = (permute (assembleInput k cn)).toList := by
  rw [blockBytes, runBlockCore_out]

/-- The block of the present counter words is the stream's block of that number (R156). -/
theorem permute_eq_keystreamBlock (k : Vector Word 8) (cn : Vector Word 4) :
    permute (assembleInput k cn) = keystreamBlock k cn[2] cn[3] (ctr64 cn) := by
  rw [keystreamBlock, counterWords_ctr64]

theorem keystreamByte_of_block (k : Vector Word 8) (nonce2 nonce3 : Word) (n : Nat) {j : Nat} (hj : j < 64) :
    keystreamByte k nonce2 nonce3 (64 * n + j) = (keystreamBlock k nonce2 nonce3 n)[j] := by
  have hdiv : (64 * n + j) / 64 = n := by omega
  have hmod : (64 * n + j) % 64 = j := by omega
  simp only [keystreamByte, hdiv, hmod]

theorem permute_getElem (k : Vector Word 8) (cn : Vector Word 4) {j : Nat} (hj : j < 64) :
    (permute (assembleInput k cn))[j] = keystreamByte k cn[2] cn[3] (64 * ctr64 cn + j) := by
  rw [keystreamByte_of_block _ _ _ _ hj]
  simp only [permute_eq_keystreamBlock]

theorem blockBytes_getElem (bc : BlockCore) (k : Vector Word 8) (cn : Vector Word 4) {j : Nat}
    (hj : j < (blockBytes bc k cn).length) :
    (blockBytes bc k cn)[j] = keystreamByte k cn[2] cn[3] (64 * ctr64 cn + j) := by
  simp only [blockBytes_eq, Vector.getElem_toList]
  exact permute_getElem k cn (by simpa using hj)

/-! ### The whole-block step and the tail step (R152, R153) -/

theorem wholeBlock_eq (src dst : Nat) (s : State) :
    wholeBlock src dst s =
      { s with
        mem := xorRun src dst (permute (assembleInput s.k s.cn)).toList s.mem
        cn := incrCn s.cn
        bc := (block s).bc } := by
  rw [← blockBytes_eq s.bc]
  rfl

theorem tail_eq {r : Nat} (hr : 0 < r) (src dst : Nat) (s : State) :
    tail src dst r s =
      { s with
        mem := xorRun src dst ((permute (assembleInput s.k s.cn)).toList.take r) s.mem
        buf := permute (assembleInput s.k s.cn)
        rem := BitVec.ofNat 6 (64 - r)
        bc := (block s).bc } := by
  have hne : r ≠ 0 := Nat.ne_of_gt hr
  rw [tail_frame, blockBytes_eq, if_neg hne, if_neg hne, if_neg hne, block_bc, runBlockCore_out]

/-- Settles O24: the block's 64 bytes as one byte run. -/
theorem wholeBlockStep : Obligations.WholeBlockStep := by
  refine ⟨fun src dst s hwf hranges htop => ?_, fun _ _ _ => rfl, fun _ _ _ _ => rfl⟩
  have hlength : (permute (assembleInput s.k s.cn)).toList.length = 64 := Vector.length_toList
  rw [wholeBlock_eq]
  refine ⟨rfl, fun j => ?inside, fun a ha => ?outside⟩
  case inside =>
    dsimp only
    rw [xorRun_read_inside _ src dst j.val s.mem (by omega) (by omega) (by rw [hlength]; exact htop) hwf,
      Vector.getElem_toList]
    rfl
  case outside =>
    exact xorRun_read_outside _ _ _ _ _ (by rwa [hlength])

/-- Settles O25: the first `r` bytes of a block as one byte run; REM after a drain that leaves bytes. -/
theorem tailStep : Obligations.TailStep := by
  refine ⟨fun src dst r s hwf hranges htop hlt => ⟨fun hr => if_pos hr, fun hr => ?tail⟩,
    fun n src dst src' dst' len s hleft => ?drained⟩
  case tail =>
    have hlength : ((permute (assembleInput s.k s.cn)).toList.take r).length = r := by simp [hlt.le]
    rw [tail_eq hr]
    refine ⟨rfl, ?rem, fun j hj => ?inside, fun a ha => ?outside⟩
    case rem =>
      rw [BitVec.toNat_ofNat]
      omega
    case inside =>
      dsimp only
      rw [xorRun_read_inside _ src dst j.val s.mem (by omega) (by omega) (by rw [hlength]; exact htop) hwf,
        List.getElem_take, Vector.getElem_toList]
      rfl
    case outside =>
      exact xorRun_read_outside _ _ _ _ _ (by rwa [hlength])
  case drained =>
    apply BitVec.eq_of_toNat_eq
    rw [blocks_frame]
    have hzero : (drain src dst len s).rem.toNat = 0 := by
      rw [drain_rem_toNat, drainCount]
      omega
    exact hzero

/-! ### The bytes a session still has to give -/

/-- Byte `j` from where the state stands: of BUF while bytes of it are unused, then of the stream. -/
def sessionByte (s : State) (j : Nat) : Byte :=
  if j < s.rem.toNat then (s.buf.toList[64 - s.rem.toNat + j]?).getD 0
  else keystreamByte s.k s.cn[2] s.cn[3] (streamPos s + j)

/-- Whole blocks and a part of the next: consecutive bytes of the stream, while the counter does not wrap. -/
theorem blocksBytes_append_getElem {n r j : Nat} {bc bc' : BlockCore} {k : Vector Word 8} {cn : Vector Word 4}
    (h : ctr64 cn + n < 2 ^ 64)
    (hj : j < (blocksBytes n bc k cn ++ (blockBytes bc' k (incrTimes n cn)).take r).length) :
    (blocksBytes n bc k cn ++ (blockBytes bc' k (incrTimes n cn)).take r)[j] =
      keystreamByte k cn[2] cn[3] (64 * ctr64 cn + j) := by
  induction n generalizing bc cn j with
  | zero =>
    simp only [blocksBytes, incrTimes, List.nil_append, List.getElem_take, blockBytes_getElem]
  | succ n ih =>
    have hnext : ctr64 (incrCn cn) = ctr64 cn + 1 := ctr64_incrCn (by omega)
    simp only [blocksBytes, incrTimes, List.append_assoc]
    rw [List.getElem_append]
    split
    next hfirst => exact blockBytes_getElem ..
    next hlater =>
      rw [blockBytes_length] at hlater
      have hpos : 64 * (ctr64 cn + 1) + (j - 64) = 64 * ctr64 cn + j := by omega
      rw [ih (by omega), incrCn_2, incrCn_3, hnext, blockBytes_length, hpos]

/-- Below the counter's limit the bytes a PROCESS uses are the session's next ones. -/
theorem processBytes_getElem {s : State} {len j : Nat} (h : BelowLimit s len) (hj : j < (processBytes s len).length) :
    (processBytes s len)[j] = sessionByte s j := by
  have hdrain := ctr64_drainCn h
  have hrem : s.rem.toNat < 64 := s.rem.isLt
  have hlen : j < len := by rwa [processBytes_length] at hj
  unfold BelowLimit incCount at h
  have hsplit : processBytes s len =
      drainBytes s len ++ (blocksBytes ((len - drainCount s len) / 64) s.bc s.k (drainCn s len) ++
        (blockBytes (blocksCore ((len - drainCount s len) / 64) s.bc s.k (drainCn s len)) s.k
          (incrTimes ((len - drainCount s len) / 64) (drainCn s len))).take ((len - drainCount s len) % 64)) := rfl
  rw [List.getElem_of_eq hsplit hj, List.getElem_append, sessionByte]
  split
  next hbuf =>
    rw [drainBytes_length, drainCount] at hbuf
    rw [drainBytes_getElem, if_pos (by omega)]
  next hstream =>
    rw [drainBytes_length] at hstream
    have hcount : drainCount s len = s.rem.toNat := by
      unfold drainCount at hstream ⊢
      omega
    have hlimit : ctr64 (drainCn s len) + (len - drainCount s len) / 64 < 2 ^ 64 := by
      rw [hdrain, drainCount]
      omega
    have hpos : 64 * ctr64 (drainCn s len) + (j - drainCount s len) = streamPos s + j := by
      rw [hdrain, drained, streamPos, hcount]
      by_cases hzero : 0 < s.rem.toNat
      · rw [decide_eq_true hzero, decide_eq_true (by omega : s.rem.toNat ≤ len), Bool.and_self, if_pos rfl]
        omega
      · rw [decide_eq_false hzero, Bool.false_and, if_neg Bool.false_ne_true]
        omega
    rw [if_neg (by omega), blocksBytes_append_getElem hlimit, drainCn_2, drainCn_3, drainBytes_length, hpos]

end Sys2Proof.Machine
end

section
/-! What a completed PROCESS leaves (sections 3, 4, 6 and 7 of spec/41_stream_engine.md): BUF, memory byte by byte, and
the stream position. -/

namespace Sys2Proof.Machine

/-! ### BUF -/

/-- I2 of R26: while bytes of BUF are unused it holds the block of the present counter. -/
abbrev BufferCurrent (s : State) : Prop := s.rem ≠ 0 → s.buf = permute (assembleInput s.k s.cn)

theorem processRun_buf_eq (src dst len : Nat) (s : State) :
    (processRun src dst len s).buf =
      if len ≤ s.rem.toNat ∨ (len - s.rem.toNat) % 64 = 0 then s.buf
      else permute (assembleInput s.k (processRun src dst len s).cn) := by
  have htail : (len - drainCount s len) % 64 = 0 ↔ len ≤ s.rem.toNat ∨ (len - s.rem.toNat) % 64 = 0 := by
    unfold drainCount
    omega
  apply Vector.toList_inj.1
  rw [processRun_buf, blockBytes_eq, ← processRun_cn src dst]
  simp only [htail]
  split <;> rfl

/-- Where bytes of BUF are unused afterwards, they were so before and are not all served, or a tail was. -/
theorem processRun_buf_of_rem_ne_zero {src dst len : Nat} {s : State} (h : (processRun src dst len s).rem ≠ 0) :
    (processRun src dst len s).buf =
      if len < s.rem.toNat then s.buf else permute (assembleInput s.k (processRun src dst len s).cn) := by
  have hrem := processRun_rem_toNat src dst len s
  have hne : (processRun src dst len s).rem.toNat ≠ 0 := fun h0 => h (BitVec.eq_of_toNat_eq h0)
  rw [processRun_buf_eq]
  split at hrem
  next hlt => rw [if_pos (.inl hlt.le), if_pos hlt]
  next hge => rw [if_neg (by omega), if_neg hge]

/-- A PROCESS that BUF serves with bytes to spare performs no INCR. -/
theorem processRun_cn_of_lt_rem {len : Nat} {s : State} (src dst : Nat) (h : len < s.rem.toNat) :
    (processRun src dst len s).cn = s.cn := by
  have hcount : drainCount s len = len := Nat.min_eq_left h.le
  have hdrained : drained s.rem.toNat len = false := by simp [drained, h]
  simp [processRun_cn, hcount, drainCn, hdrained, incrTimes]

theorem processRun_bufferCurrent {s : State} (src dst len : Nat) (h : BufferCurrent s) :
    BufferCurrent (processRun src dst len s) := by
  intro hrem
  rw [processRun_buf_of_rem_ne_zero hrem, processRun_k]
  split
  next hlt =>
    have hne : s.rem ≠ 0 := fun h0 => by simp [h0] at hlt
    rw [h hne, processRun_cn_of_lt_rem src dst hlt]
  next => rfl

/-- Settles O26: field by field. -/
theorem processCompletes : Obligations.ProcessCompletes := by
  intro s src dst len hready
  refine ⟨_, exec_process_of_ready hready, processRun_phase .., ?_, processRun_cause .., processRun_k ..,
    processRun_cn_2 .., processRun_cn_3 .., ?_, processRun_rem_toNat .., ?_, ?_⟩
  all_goals obtain ⟨hfault, -, -, -, hlimit⟩ := hready
  · rw [processRun_fault, hfault]
  · exact ctr64_processRun src dst hlimit
  · rw [processRun_k]
    exact processRun_buf_eq ..
  · rw [processRun_frame]
    exact ⟨rfl, rfl, rfl⟩

/-! ### Memory -/

theorem processRun_read_inside {s : State} {src dst len j : Nat} (hwf : s.mem.wf = true)
    (hready : ProcessReady s src dst len) (hj : j < len) :
    (processRun src dst len s).mem.read (dst + j) = s.mem.read (src + j) ^^^ sessionByte s j := by
  obtain ⟨-, -, hrange, hranges, hlimit⟩ := hready
  have hlength := processBytes_length s len
  have htop : dst + (processBytes s len).length ≤ Config.addressTop := by
    rw [hlength, Config.addressTop]
    omega
  rw [processRun_mem, xorRun_read_inside _ src dst j s.mem (by omega) (by omega) htop hwf, processBytes_getElem hlimit]

theorem processRun_read_outside {s : State} {src dst len a : Nat} (h : a < dst ∨ dst + len ≤ a) :
    (processRun src dst len s).mem.read a = s.mem.read a := by
  rw [processRun_mem]
  exact xorRun_read_outside _ _ _ _ _ (by rwa [processBytes_length])

/-- Settles O28: a dropped or faulted PROCESS writes nothing, a completed one its byte run. -/
theorem processMemoryFrame : Obligations.ProcessMemoryFrame := by
  intro s src dst len
  obtain ⟨-, hnext⟩ | ⟨-, c, -, hnext⟩ | ⟨-, hnext⟩ := exec_process_outcomes src dst len s
  · exact ⟨_, hnext, fun _ _ => rfl⟩
  · exact ⟨_, hnext, fun _ _ => rfl⟩
  · exact ⟨_, hnext, fun _ ha => processRun_read_outside ha⟩

/-- The addresses reach memory and no other field. -/
theorem processRun_eq_of_addresses (src dst src' dst' len : Nat) (s : State) :
    processRun src dst len s = { processRun src' dst' len s with mem := (processRun src dst len s).mem } := by
  simp only [processRun, releaseBlockCore, tail_frame, blocks_frame, drain_frame, block_bc]

/-- Settles O33: both runs take the same bytes from the same source, and no field but memory sees the addresses. -/
theorem inPlaceEqualsOutOfPlace : Obligations.InPlaceEqualsOutOfPlace := by
  intro s src dst len hwf hready _
  have hreadyIn : ProcessReady s src src len := by
    obtain ⟨hfault, hinit, hrange, -, hlimit⟩ := hready
    exact ⟨hfault, hinit, by omega, .inl rfl, hlimit⟩
  refine ⟨_, _, exec_process_of_ready hready, exec_process_of_ready hreadyIn, fun j hj => ?bytes, ?frame⟩
  case bytes =>
    rw [processRun_read_inside hwf hready hj, processRun_read_inside hwf hreadyIn hj]
  case frame =>
    have hbc : (processRun src src len s).bc = (processRun src dst len s).bc := by
      rw [processRun_eq_of_addresses src src src dst]
    have hdraws : (processRun src src len s).draws = (processRun src dst len s).draws := by
      rw [processRun_eq_of_addresses src src src dst]
    rw [hbc, hdraws]
    exact processRun_eq_of_addresses src src src dst len s

/-! ### The stream law (section 6) -/

/-- Where BUF holds the block of the counter, its unused bytes are the stream's next ones. -/
theorem sessionByte_of_bufferCurrent {s : State} (h : BufferCurrent s) (j : Nat) :
    sessionByte s j = keystreamByte s.k s.cn[2] s.cn[3] (streamPos s + j) := by
  have hlt : s.rem.toNat < 64 := s.rem.isLt
  rw [sessionByte]
  split
  next hj =>
    have hne : s.rem ≠ 0 := fun h0 => by simp [h0] at hj
    have hpos : 64 * ctr64 s.cn + (64 - s.rem.toNat + j) = streamPos s + j := by
      unfold streamPos
      omega
    have hi : 64 - s.rem.toNat + j < 64 := by omega
    rw [h hne, List.getElem?_eq_getElem (by rw [Vector.length_toList]; exact hi), Option.getD_some,
      Vector.getElem_toList, permute_getElem _ _ hi, hpos]
  next => rfl

/-- Settles O27: the session's bytes are the stream's, and the position and BUF move along. -/
theorem processStreamLaw : Obligations.ProcessStreamLaw := by
  intro s src dst len hinv hready
  obtain ⟨hbuf, -, -, hwf, -⟩ := hinv
  have hlimit : BelowLimit s len := belowLimit_of_ready hready
  refine ⟨_, exec_process_of_ready hready, fun j hj => ?bytes, streamPos_processRun src dst hlimit, fun hrem => ?buf⟩
  case bytes =>
    rw [processRun_read_inside hwf hready hj, sessionByte_of_bufferCurrent hbuf]
  case buf =>
    rw [processRun_bufferCurrent src dst len hbuf hrem, permute_eq_keystreamBlock, ← ctr64_eq_streamPos_div,
      processRun_k, processRun_cn_2, processRun_cn_3]

/-! ### What decides the faults and the control registers (R185, R191 of spec/60_exceptions.md) -/

/-- Settles O37: the last check of PROCESS, and INC(0, LEN) = LEN div 64. -/
theorem counterLimitFault : Obligations.CounterLimitFault := by
  intro s src dst len hfault hinit hrange hranges
  have hraised : exec (.process src dst len) s = .next (raiseFault .ctrLimit s) ↔ ¬ BelowLimit s len :=
    (exec_process_eq_raiseFault_iff hfault).trans (processFault_eq_ctrLimit_iff hinit hrange hranges)
  have hlimit := ctr64_lt s.cn
  refine ⟨hraised.trans ?_, fun hrem => hraised.trans ?_⟩
  · rw [BelowLimit, Nat.not_lt, incCount]
    simp only [drained, Bool.and_eq_true, decide_eq_true_iff, ge_iff_le]
  · have hcount : incCount s.rem.toNat len = len / 64 := by simp [incCount, drained, hrem]
    rw [BelowLimit, hcount]
    omega

/-- Two states equal in PHASE, FAULT, REM and the counter take one PROCESS to the same end (R187). -/
theorem exec_process_lockstep {s s' : State} (src dst len : Nat) (hphase : s.phase = s'.phase)
    (hfault : s.fault = s'.fault) (hrem : s.rem = s'.rem) (hctr : ctr64 s.cn = ctr64 s'.cn) :
    (exec (.process src dst len) s = .next s ∧ exec (.process src dst len) s' = .next s') ∨
    (∃ c, exec (.process src dst len) s = .next (raiseFault c s) ∧
      exec (.process src dst len) s' = .next (raiseFault c s')) ∨
    (ProcessReady s src dst len ∧ ProcessReady s' src dst len) := by
  have hcheck : processFault src dst len s = processFault src dst len s' := by
    rw [processFault, processFault, hphase, hrem, hctr]
  obtain ⟨hdropped, hnext⟩ | ⟨hclear, c, hc, hnext⟩ | ⟨hready, -⟩ := exec_process_outcomes src dst len s
  · exact .inl ⟨hnext, exec_process_of_faulted src dst len (hfault.symm.trans hdropped)⟩
  · exact .inr (.inl ⟨c, hnext,
      (exec_process_eq_raiseFault_iff (hfault.symm.trans hclear)).2 (hcheck.symm.trans hc)⟩)
  · exact .inr (.inr ⟨hready, processReady_of_processFault (hfault.symm.trans hready.1)
      (hcheck.symm.trans (processFault_eq_none hready))⟩)

/-- The counter words are the digits of the counter, whatever the nonce words are. -/
theorem cn_0_1_eq_of_ctr64_eq {cn cn' : Vector Word 4} (h : ctr64 cn = ctr64 cn') :
    cn[0] = cn'[0] ∧ cn[1] = cn'[1] := by
  unfold ctr64 at h
  exact ⟨BitVec.eq_of_toNat_eq (by omega), BitVec.eq_of_toNat_eq (by omega)⟩

/-- Settles O42: the same end for both, and the counter and REM after it are functions of the counter, REM and LEN. -/
theorem controlIndependentOfSecrets : Obligations.ControlIndependentOfSecrets := by
  intro s s' src dst len hphase hfault hcause hrem h0 h1
  have hctr : ctr64 s.cn = ctr64 s'.cn := by rw [ctr64, ctr64, h0, h1]
  obtain ⟨hnext, hnext'⟩ | ⟨c, hnext, hnext'⟩ | ⟨hready, hready'⟩ :=
    exec_process_lockstep src dst len hphase hfault hrem hctr
  · exact ⟨_, _, hnext, hnext', hphase, hfault, hcause, hrem, h0, h1⟩
  · exact ⟨_, _, hnext, hnext', hphase, rfl, rfl, hrem, h0, h1⟩
  · have hctr' : ctr64 (processRun src dst len s).cn = ctr64 (processRun src dst len s').cn := by
      rw [ctr64_processRun src dst (belowLimit_of_ready hready), ctr64_processRun src dst (belowLimit_of_ready hready'),
        hctr, hrem]
    have hrem' : (processRun src dst len s).rem = (processRun src dst len s').rem :=
      BitVec.eq_of_toNat_eq (by rw [processRun_rem_toNat, processRun_rem_toNat, hrem])
    exact ⟨_, _, exec_process_of_ready hready, exec_process_of_ready hready', by simp, by simpa using hfault,
      by simpa using hcause, hrem', cn_0_1_eq_of_ctr64_eq hctr'⟩

end Sys2Proof.Machine
end

section
/-! Sessions (section 6 of spec/41_stream_engine.md): a PROCESS in pieces, a PROCESS twice, and a list of them after an
INIT; and that what is no part of a session reaches no result (sections 4, 8 and 9 of spec/10_state.md). -/

namespace Sys2Proof.Machine

/-! ### The bytes depend on the session alone -/

theorem sessionByte_congr {s s' : State} (hk : s.k = s'.k) (hcn : s.cn = s'.cn) (hrem : s.rem = s'.rem)
    (hbuf : s.rem ≠ 0 → s.buf = s'.buf) (j : Nat) : sessionByte s j = sessionByte s' j := by
  have hpos : streamPos s = streamPos s' := by rw [streamPos, streamPos, hcn, hrem]
  rw [sessionByte, sessionByte, hk, hcn, hpos, ← hrem]
  split
  next hj =>
    have hne : s.rem ≠ 0 := fun h0 => by simp [h0] at hj
    rw [hbuf hne]
  next => rfl

/-- Settles O32: both runs meet the same keystream bytes, and xor with a byte twice is nothing. -/
theorem processSelfInverse : Obligations.ProcessSelfInverse := by
  intro s s' src dst src' dst' len hk hcn hrem hbuf hwf hwf' hready hready'
  refine ⟨_, _, exec_process_of_ready hready, exec_process_of_ready hready', fun hread j hj => ?_⟩
  rw [processRun_read_inside hwf' hready' hj, hread j hj, processRun_read_inside hwf hready hj,
    sessionByte_congr hk hcn hrem hbuf, BitVec.xor_assoc, BitVec.xor_self, BitVec.xor_zero]

theorem processBytes_congr {s s' : State} {len : Nat} (hlimit : BelowLimit s len) (hlimit' : BelowLimit s' len)
    (h : ∀ j < len, sessionByte s j = sessionByte s' j) : processBytes s len = processBytes s' len := by
  refine List.ext_getElem (by rw [processBytes_length, processBytes_length]) fun j hj hj' => ?_
  rw [processBytes_getElem hlimit, processBytes_getElem hlimit', h j (by rwa [processBytes_length] at hj)]

/-! ### Two states of one session -/

theorem sameSession_trans {s t u : State} (hst : SameSession s t) (htu : SameSession t u) : SameSession s u := by
  obtain ⟨hk, hcn, hrem, hbuf, hphase, hfault, hcause, hmem⟩ := hst
  obtain ⟨hk', hcn', hrem', hbuf', hphase', hfault', hcause', hmem'⟩ := htu
  exact ⟨hk.trans hk', hcn.trans hcn', hrem.trans hrem', fun hne => (hbuf hne).trans (hbuf' (hrem ▸ hne)),
    hphase.trans hphase', hfault.trans hfault', hcause.trans hcause', hmem.trans hmem'⟩

/-- A PROCESS below the limit leaves two states of one session in one session. -/
theorem processRun_sameSession {s s' : State} {len : Nat} (src dst : Nat) (h : SameSession s s')
    (hlimit : BelowLimit s len) : SameSession (processRun src dst len s) (processRun src dst len s') := by
  obtain ⟨hk, hcn, hrem, hbuf, hphase, hfault, hcause, hmem⟩ := h
  have hlimit' : BelowLimit s' len := by rwa [BelowLimit, ← hcn, ← hrem]
  have hcn' : (processRun src dst len s).cn = (processRun src dst len s').cn := by
    simp only [processRun_cn, drainCn, drainCount, hcn, hrem]
  have hrem' : (processRun src dst len s).rem = (processRun src dst len s').rem :=
    BitVec.eq_of_toNat_eq (by rw [processRun_rem_toNat, processRun_rem_toNat, hrem])
  refine ⟨by simpa using hk, hcn', hrem', fun hne => ?buf, by simp, by simpa using hfault, by simpa using hcause, ?mem⟩
  case buf =>
    rw [processRun_buf_of_rem_ne_zero hne, processRun_buf_of_rem_ne_zero (hrem' ▸ hne), hk, hcn', ← hrem]
    split
    next hlt => exact hbuf fun h0 => by simp [h0] at hlt
    next => rfl
  case mem =>
    rw [processRun_mem, processRun_mem, hmem,
      processBytes_congr hlimit hlimit' fun j _ => sessionByte_congr hk hcn hrem hbuf j]

/-- No instruction tells two states of one session apart. -/
theorem exec_sameSession {s s' : State} (i : Instr) (h : SameSession s s') :
    ∃ t t', exec i s = .next t ∧ exec i s' = .next t' ∧ SameSession t t' := by
  obtain ⟨hk, hcn, hrem, hbuf, hphase, hfault, hcause, hmem⟩ := id h
  cases hmicro : isMicro i with
  | true => exact ⟨_, _, exec_micro i s hmicro, exec_micro i s' hmicro, h⟩
  | false =>
    cases i with
    | init keyptr ncptr =>
      cases hclear : s.fault with
      | true =>
        exact ⟨_, _, exec_init_of_faulted keyptr ncptr hclear, exec_init_of_faulted keyptr ncptr (hfault ▸ hclear), h⟩
      | false =>
        have hclear' : NoFault s' := hfault.symm.trans hclear
        by_cases hfits : keyptr + 32 ≤ 2 ^ 32 ∧ ncptr + 16 ≤ 2 ^ 32
        · exact ⟨_, _, exec_init_of_fits hclear hfits.1 hfits.2, exec_init_of_fits hclear' hfits.1 hfits.2,
            by rw [hmem], by rw [hmem], rfl, nofun, rfl, hfault, hcause, hmem⟩
        · have hpasses : keyptr + 32 > 2 ^ 32 ∨ ncptr + 16 > 2 ^ 32 := by omega
          exact ⟨_, _, exec_init_of_passes_top hclear hpasses, exec_init_of_passes_top hclear' hpasses, hk, hcn, hrem,
            hbuf, hphase, rfl, rfl, hmem⟩
    | process src dst len =>
      obtain ⟨hnext, hnext'⟩ | ⟨c, hnext, hnext'⟩ | ⟨hready, hready'⟩ :=
        exec_process_lockstep src dst len hphase hfault hrem (congrArg ctr64 hcn)
      · exact ⟨_, _, hnext, hnext', h⟩
      · exact ⟨_, _, hnext, hnext', hk, hcn, hrem, hbuf, hphase, rfl, rfl, hmem⟩
      · exact ⟨_, _, exec_process_of_ready hready, exec_process_of_ready hready',
          processRun_sameSession src dst h (belowLimit_of_ready hready)⟩
    | _ => cases hmicro

/-- The Block Core's registers are no part of a session (R39). -/
theorem sameSession_bc (s : State) (b : BlockCore) : SameSession s { s with bc := b } :=
  ⟨rfl, rfl, rfl, fun _ => rfl, rfl, rfl, rfl, rfl⟩

/-- Nor is BUF while no byte of it is unused. -/
theorem sameSession_buf {s : State} (hrem : s.rem = 0) (b : Vector Byte 64) : SameSession s { s with buf := b } :=
  ⟨rfl, rfl, rfl, fun hne => absurd hrem hne, rfl, rfl, rfl, rfl⟩

theorem isMicro_of_no_command {i : Instr} (hinit : ∀ keyptr ncptr, i ≠ .init keyptr ncptr)
    (hprocess : ∀ src dst len, i ≠ .process src dst len) : isMicro i = true := by
  cases i with
  | init keyptr ncptr => exact absurd rfl (hinit keyptr ncptr)
  | process src dst len => exact absurd rfl (hprocess src dst len)
  | _ => rfl

/-- Settles O43: two states of one session, and a micro-op that reaches the Block Core's registers only. -/
theorem staleBufferUnobservable : Obligations.StaleBufferUnobservable := by
  refine ⟨fun i s b hrem => exec_sameSession i (sameSession_buf hrem b), fun i s b hinit hprocess => ?_⟩
  have hmicro := isMicro_of_no_command hinit hprocess
  exact ⟨_, exec_micro i s hmicro, exec_micro i _ hmicro⟩

/-- Settles O44: two states of one session. -/
theorem blockCoreRegistersUnobservable : Obligations.BlockCoreRegistersUnobservable :=
  ⟨fun keyptr ncptr s b => exec_sameSession (.init keyptr ncptr) (sameSession_bc s b),
    fun src dst len s b => exec_sameSession (.process src dst len) (sameSession_bc s b)⟩

/-! ### Chunking (property (a)) -/

/-- What a PROCESS leaves is the session's remaining bytes, whether BUF had to spare or not. -/
theorem sessionByte_processRun {s : State} {n : Nat} (src dst : Nat) (hlimit : BelowLimit s n) (j : Nat) :
    sessionByte (processRun src dst n s) j = sessionByte s (n + j) := by
  have hpos : streamPos (processRun src dst n s) + j = streamPos s + (n + j) := by
    rw [streamPos_processRun src dst hlimit, Nat.add_assoc]
  have hrem := processRun_rem_toNat src dst n s
  have hbound : s.rem.toNat < 64 := s.rem.isLt
  by_cases hlt : n < s.rem.toNat
  case pos =>
    rw [if_pos hlt] at hrem
    have hne : (processRun src dst n s).rem ≠ 0 := fun h0 => by simp [h0] at hrem; omega
    have hbuf : (processRun src dst n s).buf = s.buf := by rw [processRun_buf_of_rem_ne_zero hne, if_pos hlt]
    have hindex : 64 - (s.rem.toNat - n) + j = 64 - s.rem.toNat + (n + j) := by omega
    have hcond : j < s.rem.toNat - n ↔ n + j < s.rem.toNat := by omega
    simp only [sessionByte, hrem, hbuf, hindex, hcond, hpos, processRun_k, processRun_cn_2, processRun_cn_3]
  case neg =>
    have hcurrent : BufferCurrent (processRun src dst n s) := fun hne => by
      rw [processRun_buf_of_rem_ne_zero hne, if_neg hlt, processRun_k]
    rw [sessionByte_of_bufferCurrent hcurrent, hpos, processRun_k, processRun_cn_2, processRun_cn_3, sessionByte,
      if_neg (by omega)]

/-- A length below the limit is so in pieces. -/
theorem belowLimit_split {s : State} {n m : Nat} (src dst : Nat) (hlimit : BelowLimit s (n + m)) :
    BelowLimit s n ∧ BelowLimit (processRun src dst n s) m := by
  rw [belowLimit_iff] at hlimit
  have hfirst : BelowLimit s n := (belowLimit_iff ..).2 (by omega)
  refine ⟨hfirst, (belowLimit_iff ..).2 ?_⟩
  rw [streamPos_processRun src dst hfirst]
  omega

theorem processBytes_append {s : State} {n m : Nat} (src dst : Nat) (hlimit : BelowLimit s (n + m)) :
    processBytes s n ++ processBytes (processRun src dst n s) m = processBytes s (n + m) := by
  obtain ⟨hfirst, hsecond⟩ := belowLimit_split src dst hlimit
  refine List.ext_getElem (by simp) fun j hj hj' => ?_
  rw [processBytes_getElem hlimit, List.getElem_append]
  split
  next => exact processBytes_getElem hfirst _
  next hge =>
    rw [processBytes_length] at hge
    rw [processBytes_getElem hsecond, sessionByte_processRun src dst hfirst, processBytes_length,
      Nat.add_sub_cancel' (Nat.not_lt.1 hge)]

/-- A PROCESS in two pieces is the one PROCESS, up to what the session cannot see. -/
theorem processRun_append {s : State} {n m : Nat} (src dst : Nat) (hlimit : BelowLimit s (n + m)) :
    SameSession (processRun (src + n) (dst + n) m (processRun src dst n s)) (processRun src dst (n + m) s) := by
  obtain ⟨hfirst, hsecond⟩ := belowLimit_split src dst hlimit
  have hpos : streamPos (processRun (src + n) (dst + n) m (processRun src dst n s)) =
      streamPos (processRun src dst (n + m) s) := by
    rw [streamPos_processRun _ _ hsecond, streamPos_processRun _ _ hfirst, streamPos_processRun _ _ hlimit,
      Nat.add_assoc]
  have hcn := cn_eq_of_streamPos_eq hpos (by simp) (by simp)
  have hrem := rem_eq_of_streamPos_eq hpos
  refine ⟨by simp, hcn, hrem, fun hne => ?buf, by simp, by simp, by simp, ?mem⟩
  case buf =>
    have hne' : (processRun src dst (n + m) s).rem ≠ 0 := by rwa [← hrem]
    have hrest := processRun_rem_toNat src dst n s
    rw [processRun_buf_of_rem_ne_zero hne, processRun_buf_of_rem_ne_zero hne', hcn, processRun_k]
    split
    next hlt =>
      have hrest0 : (processRun src dst n s).rem ≠ 0 := fun h0 => by simp [h0] at hlt
      have hcond : n < s.rem.toNat ↔ n + m < s.rem.toNat := by split at hrest <;> omega
      rw [processRun_buf_of_rem_ne_zero hrest0, ← processRun_cn_of_lt_rem (src + n) (dst + n) hlt, hcn]
      simp only [hcond]
    next hge => rw [if_neg (by split at hrest <;> omega)]
  case mem =>
    rw [processRun_mem, processRun_mem, processRun_mem, ← processBytes_append src dst hlimit, xorRun_append,
      processBytes_length]

theorem processReady_split {s : State} {src dst n m : Nat} (h : ProcessReady s src dst (n + m)) :
    ProcessReady s src dst n ∧ ProcessReady (processRun src dst n s) (src + n) (dst + n) m := by
  obtain ⟨hfault, hinit, hrange, hranges, hlimit⟩ := h
  obtain ⟨hfirst, hsecond⟩ := belowLimit_split src dst hlimit
  refine ⟨⟨hfault, hinit, by omega, by omega, hfirst⟩, by rwa [NoFault, processRun_fault], ?_, by omega, by omega,
    hsecond⟩
  rw [Inited, processRun_phase]
  exact nofun

theorem execAll_cons_of_exec {i : Instr} {is : List Instr} {s t : State} (h : exec i s = .next t) :
    execAll (i :: is) s = execAll is t := by
  rw [execAll, h]

/-- At least one piece: one piece is the PROCESS itself, and a first piece is followed by the rest in one. -/
theorem execAll_pieces {s : State} {src dst n : Nat} {rest : List Nat}
    (h : ProcessReady s src dst (n :: rest).sum) :
    ∃ t, execAll (pieces src dst (n :: rest)) s = .next t ∧
      SameSession t (processRun src dst (n :: rest).sum s) := by
  induction rest generalizing s src dst n with
  | nil =>
    rw [List.sum_singleton] at h ⊢
    exact ⟨_, execAll_cons_of_exec (exec_process_of_ready h), rfl, rfl, rfl, fun _ => rfl, rfl, rfl, rfl, rfl⟩
  | cons m rest ih =>
    rw [List.sum_cons] at h ⊢
    obtain ⟨hfirst, hsecond⟩ := processReady_split h
    obtain ⟨t, hnext, hsession⟩ := ih hsecond
    exact ⟨t, (execAll_cons_of_exec (exec_process_of_ready hfirst)).trans hnext,
      sameSession_trans hsession (processRun_append src dst (belowLimit_of_ready h))⟩

/-- Settles O31: the pieces leave the one call's session. -/
theorem chunkingInvariance : Obligations.ChunkingInvariance := by
  intro s src dst lens hlens hready
  cases lens with
  | nil => exact absurd rfl hlens
  | cons n rest =>
    obtain ⟨t, hnext, hsession⟩ := execAll_pieces hready
    exact ⟨t, _, hnext, exec_process_of_ready hready, hsession⟩

/-! ### A list of PROCESS commands after an INIT (properties (b) to (e)) -/

/-- The PROCESS commands of a list of operands. -/
abbrev processCommands (cmds : List (Nat × Nat × Nat)) : List Instr := cmds.map fun c => .process c.1 c.2.1 c.2.2

theorem execAll_process_of_faulted (cmds : List (Nat × Nat × Nat)) {s : State} (hfault : s.fault = true) :
    execAll (processCommands cmds) s = .next s := by
  induction cmds with
  | nil => rfl
  | cons c cmds ih => exact (execAll_cons_of_exec (exec_process_of_faulted _ _ _ hfault)).trans ih

/-- The position moves by the total length until a command would take the counter to its limit; that one faults and the
later ones are dropped. -/
theorem execAll_process_session {cmds : List (Nat × Nat × Nat)} {s : State} (hfault : NoFault s) (hinit : Inited s)
    (hbuf : BufferCurrent s)
    (hcmds : ∀ c ∈ cmds, RangesInMemory c.1 c.2.1 c.2.2 ∧ EqualOrDisjoint c.1 c.2.1 c.2.2) :
    ∃ t, execAll (processCommands cmds) s = .next t ∧
      (streamPos s + (cmds.map fun c => c.2.2).sum < 2 ^ 70 →
        NoFault t ∧ streamPos t = streamPos s + (cmds.map fun c => c.2.2).sum ∧ BufferCurrent t ∧
        t.k = s.k ∧ t.cn[2] = s.cn[2] ∧ t.cn[3] = s.cn[3]) ∧
      (2 ^ 70 ≤ streamPos s + (cmds.map fun c => c.2.2).sum → t.fault = true ∧ t.cause = .ctrLimit) := by
  induction cmds generalizing s with
  | nil =>
    exact ⟨s, rfl, fun _ => ⟨hfault, rfl, hbuf, rfl, rfl, rfl⟩, fun hge => absurd (streamPos_lt s) (Nat.not_lt.2 hge)⟩
  | cons c cmds ih =>
    obtain ⟨src, dst, len⟩ := c
    obtain ⟨⟨hrange, hranges⟩, hrest⟩ := List.forall_mem_cons.1 hcmds
    simp only [List.map_cons, List.sum_cons]
    by_cases hlimit : BelowLimit s len
    case pos =>
      have hready : ProcessReady s src dst len := ⟨hfault, hinit, hrange, hranges, hlimit⟩
      obtain ⟨t, hnext, hbelow, hreached⟩ := ih (s := processRun src dst len s) (by rwa [NoFault, processRun_fault])
        (by rw [Inited, processRun_phase]; exact nofun) (processRun_bufferCurrent src dst len hbuf) hrest
      rw [streamPos_processRun src dst hlimit, Nat.add_assoc] at hbelow hreached
      rw [processRun_k, processRun_cn_2, processRun_cn_3] at hbelow
      exact ⟨t, (execAll_cons_of_exec (exec_process_of_ready hready)).trans hnext, hbelow, hreached⟩
    case neg =>
      have hraised : exec (.process src dst len) s = .next (raiseFault .ctrLimit s) :=
        (exec_process_eq_raiseFault_iff hfault).2 ((processFault_eq_ctrLimit_iff hinit hrange hranges).2 hlimit)
      rw [belowLimit_iff] at hlimit
      exact ⟨_, (execAll_cons_of_exec hraised).trans (execAll_process_of_faulted cmds rfl), fun hlt => by omega,
        fun _ => ⟨rfl, rfl⟩⟩

/-- What an INIT that completes leaves (R141). -/
def freshSession (keyptr ncptr : Nat) (s : State) : State :=
  { s with k := loadWords 8 s.mem keyptr, cn := loadWords 4 s.mem ncptr, rem := 0, phase := .fresh }

/-- Settles O30: from the INIT the position is 64 * C0, and the counter, REM and BUF are read off the position at the
end. -/
theorem sessionStreamLaw : Obligations.SessionStreamLaw := by
  intro s keyptr ncptr cmds hfault hkey hnonce hcmds C0 T
  have hexec : exec (.init keyptr ncptr) s = .next (freshSession keyptr ncptr s) := exec_init_of_fits hfault hkey hnonce
  obtain ⟨t, hnext, hbelow, hreached⟩ := execAll_process_session (s := freshSession keyptr ncptr s)
    hfault nofun (fun hne => absurd rfl hne) hcmds
  have hstart : streamPos (freshSession keyptr ncptr s) = 64 * C0 := by simp [streamPos, freshSession, C0]
  have hlimit : C0 + T / 64 < 2 ^ 64 ↔ 64 * C0 + T < 2 ^ 70 := by omega
  rw [hstart] at hbelow hreached
  refine ⟨t, (execAll_cons_of_exec hexec).trans hnext, fun hlt => ?below,
    fun hge => hreached (Nat.not_lt.1 (mt hlimit.2 (Nat.not_lt.2 hge)))⟩
  obtain ⟨hclear, hpos, hbuf, hk, h2, h3⟩ := hbelow (hlimit.1 hlt)
  have hctr : ctr64 t.cn = C0 + T / 64 := by
    rw [ctr64_eq_streamPos_div, hpos]
    omega
  have hrem : t.rem.toNat = (64 - T % 64) % 64 := by
    rw [rem_toNat_eq_streamPos_mod, hpos]
    omega
  refine ⟨hclear, hctr, hrem, fun hne => ?_⟩
  rw [hbuf hne, permute_eq_keystreamBlock, hctr, hk, h2, h3]
  rfl

end Sys2Proof.Machine
end

section
/-! The steps of the machine: the host port and placed instructions, the invariant of section 2 of spec/10_state.md, and
what a step leaves alone. -/

namespace Sys2Proof.Machine

/-! ### The host's interactions as steps (R32 of spec/10_state.md, R220 of spec/70_reset_and_hazards.md) -/

/-- Off the five aligned words the port refuses. -/
theorem statusRead_of_reserved {width : AccessWidth} {offset : Nat} {s : State}
    (h : width ≠ .word ∨ offset ∉ [0x00, 0x04, 0x08, 0x0C, 0x10]) :
    statusRead width offset s = .refused .statusAccess := by
  cases width with
  | byte => rfl
  | half => rfl
  | word =>
    have hoffset : offset ≠ 0x00 ∧ offset ≠ 0x04 ∧ offset ≠ 0x08 ∧ offset ≠ 0x0C ∧ offset ≠ 0x10 := by simpa using h
    simp [statusRead, hoffset]

/-- Settles O47: the five offsets one by one, and the refusal of every other. -/
theorem statusPortAccesses : Obligations.StatusPortAccesses := by
  intro s rest hrun
  refine ⟨step_host s _ rest hrun, fun offset hoffset hhost => ?counter, fun width offset hbad hhost => ?reserved,
    fun width offset v => step_statusWrite hrun⟩
  case counter =>
    have hanswer (i : Fin 4) (hi : offset = 4 + 4 * i.val) :
        ∃ v d, step s = .next { s with host := rest, resp := .word v, draws := d } := by
      obtain ⟨v, d, hnext⟩ := counterAnswer_next s.cn[i] { s with host := rest }
      rw [step_host s _ rest hrun hhost, hostStep, hi, statusRead_counter]
      exact ⟨v, d, hnext⟩
    simp only [List.mem_cons, List.not_mem_nil, or_false] at hoffset
    obtain h | h | h | h := hoffset
    · exact hanswer 0 h
    · exact hanswer 1 h
    · exact hanswer 2 h
    · exact hanswer 3 h
  case reserved =>
    rw [step_host s _ rest hrun hhost, hostStep]
    exact statusRead_of_reserved hbad

/-- Settles O49. -/
theorem resetStateValues : Obligations.ResetStateValues :=
  ⟨rfl, rfl, rfl, rfl, rfl, rfl, rfl⟩

/-- Settles O50: the laws of memory at the host's address. -/
theorem hostMemoryAccess : Obligations.HostMemoryAccess := by
  refine ⟨fun s a v rest hrun hhost hwf => ?_, fun s a rest => step_host s _ rest⟩
  exact ⟨_, step_host s _ rest hrun hhost, rfl, Memory.read_write_same _ _ _ hwf,
    fun b => Memory.read_write_other _ _ b v⟩

/-! ### Instructions where a step takes them from -/

theorem eq_instr_of_toOption {d : Decoded} {i : Instr} (h : d.toOption = some i) : d = .instr i := by
  cases d with
  | instr j => exact congrArg Decoded.instr (Option.some.inj h)
  | rejected r => cases h

/-- A word of 128 bits that decodes is a descriptor's. -/
theorem decodeCommand_of_decodeTableWord {w : Nat} {i : Instr} (h : decodeTableWord 128 w = some i) :
    tableCode 128 w = some (.command (BitVec.ofNat 128 w)) ∧ decodeCommand (BitVec.ofNat 128 w) = .instr i := by
  by_cases hw : w < 2 ^ 128
  case pos =>
    have hcode : tableCode 128 w = some (.command (BitVec.ofNat 128 w)) := if_pos hw
    rw [decodeTableWord, hcode] at h
    exact ⟨hcode, eq_instr_of_toOption h⟩
  case neg =>
    have hcode : tableCode 128 w = none := if_neg hw
    rw [decodeTableWord, hcode] at h
    cases h

/-- Settles O51: a placed descriptor is the host's next interaction. -/
theorem stepRunsDecodedCommand : Obligations.StepRunsDecodedCommand := by
  refine ⟨fun s D rest i => step_issue_of_decode, fun s w i hword => ?_⟩
  obtain ⟨hcode, hdec⟩ := decodeCommand_of_decodeTableWord hword
  rw [State.withFetchWord, hcode]
  exact step_issue_of_decode rfl rfl hdec

/-- Settles O52: a decoded word of the ROM is a micro-op, which leaves upc alone. -/
theorem stepRunsDecodedMicroOp : Obligations.StepRunsDecodedMicroOp := by
  intro s t w i hrun hw hdec hexec
  have hdec' : decodeMicro w = .instr i := hdec
  have hlt : s.bc.upc.toNat < 83 := rom_length ▸ (List.getElem?_eq_some_iff.1 hw).1
  have hupc : t.bc.upc = s.bc.upc := by
    cases (exec_micro i s (decodeMicro_isMicro w i hdec')).symm.trans hexec
    exact (microEffect_frame i s.bc).2
  have hlast : s.bc.upc.toNat + 1 < 83 ↔ s.bc.upc.toNat ≠ 82 := by omega
  have hstep : step s = .next (finishMicroOp t) := by
    rw [step, if_pos hrun]
    simp only [microTurn, hw, hdec', hexec]
  rw [hstep, finishMicroOp, BlockCore.advance, hupc, rom_length]
  simp only [hlast]

/-! ### What an instruction and a step can do, said once -/

/-- Every way an instruction can end. -/
theorem exec_cases (i : Instr) (s : State) :
    (isMicro i = true ∧ exec i s = .next { s with bc := microEffect i s.bc }) ∨
    exec i s = .next s ∨
    (∃ c, c ≠ .none ∧ exec i s = .next (raiseFault c s)) ∨
    (∃ keyptr ncptr, i = .init keyptr ncptr ∧ exec i s = .next (freshSession keyptr ncptr s)) ∨
    (∃ src dst len, i = .process src dst len ∧ ProcessReady s src dst len ∧
      exec i s = .next (processRun src dst len s)) := by
  cases hmicro : isMicro i with
  | true => exact .inl ⟨rfl, exec_micro i s hmicro⟩
  | false =>
    cases i with
    | init keyptr ncptr =>
      obtain ⟨-, hnext⟩ | ⟨-, c, hcheck, hnext⟩ | ⟨-, -, hnext⟩ := execInit_cases keyptr ncptr s
      · exact .inr (.inl hnext)
      · cases eq_addrRange_of_initFault hcheck
        exact .inr (.inr (.inl ⟨.addrRange, nofun, hnext⟩))
      · exact .inr (.inr (.inr (.inl ⟨keyptr, ncptr, rfl, hnext⟩)))
    | process src dst len =>
      obtain ⟨-, hnext⟩ | ⟨-, c, hcheck, hnext⟩ | ⟨hready, hnext⟩ := exec_process_outcomes src dst len s
      · exact .inr (.inl hnext)
      · exact .inr (.inr (.inl ⟨c, ne_none_of_processFault hcheck, hnext⟩))
      · exact .inr (.inr (.inr (.inr ⟨src, dst, len, rfl, hready, hnext⟩)))
    | _ => cases hmicro

/-- What an issued descriptor can do to the state `s`: drop, fault, or run one of the two commands. -/
inductive CommandEffect (D : BitVec 128) (s : State) : State → Prop where
  | dropped : CommandEffect D s s
  | faulted (c : Cause) (hcause : c ≠ .none) : CommandEffect D s (raiseFault c s)
  | init (keyptr ncptr : Nat) (hdec : decodeCommand D = .instr (.init keyptr ncptr)) :
    CommandEffect D s (freshSession keyptr ncptr s)
  | process (src dst len : Nat) (hdec : decodeCommand D = .instr (.process src dst len))
    (hready : ProcessReady s src dst len) : CommandEffect D s (processRun src dst len s)

theorem issueCommand_effect (D : BitVec 128) (s : State) :
    ∃ t, issueCommand D s = .next t ∧ CommandEffect D s t := by
  cases hdec : decodeCommand D with
  | rejected r =>
    cases hfault : s.fault with
    | true => exact ⟨_, issueCommand_of_faulted D hfault, .dropped⟩
    | false => exact ⟨_, issueCommand_of_rejected hdec hfault, .faulted .illegalCmd nofun⟩
  | instr i =>
    have hissue : issueCommand D s = exec i s := by rw [issueCommand, hdec]
    rw [hissue]
    obtain ⟨hmicro, -⟩ | hnext | ⟨c, hc, hnext⟩ | ⟨keyptr, ncptr, rfl, hnext⟩ | ⟨src, dst, len, rfl, hready, hnext⟩ :=
      exec_cases i s
    · obtain rfl | rfl := decodeCommand_cases D i hdec
      · cases hmicro
      · cases hmicro
    · exact ⟨_, hnext, .dropped⟩
    · exact ⟨_, hnext, .faulted c hc⟩
    · exact ⟨_, hnext, .init keyptr ncptr hdec⟩
    · exact ⟨_, hnext, .process src dst len hdec hready⟩

/-- What one host interaction can do to the state `s` that no longer holds it. -/
inductive HostEffect (s : State) : HostAct → State → Prop where
  | reset : HostEffect s .reset (resetEvent s)
  | issue {D : BitVec 128} {t : State} (h : CommandEffect D s t) : HostEffect s (.issue D) t
  | statusRead (width : AccessWidth) (offset : Nat) (v : Word) (d : Nat) :
    HostEffect s (.statusRead width offset) { s with resp := .word v, draws := d }
  | memRead (a : Word) : HostEffect s (.memRead a) (hostMemRead a s)
  | memWrite (a : Word) (v : Byte) : HostEffect s (.memWrite a v) (hostMemWrite a v s)

theorem hostEffect_of_hostStep {act : HostAct} {s t : State} (h : hostStep act s = .next t) : HostEffect s act t := by
  cases act with
  | reset =>
    cases h
    exact .reset
  | issue D =>
    obtain ⟨u, hnext, heffect⟩ := issueCommand_effect D s
    cases hnext.symm.trans h
    exact .issue heffect
  | statusRead width offset =>
    obtain hrefused | ⟨v, d, hnext⟩ := statusRead_cases width offset s
    · cases hrefused.symm.trans h
    · cases hnext.symm.trans h
      exact .statusRead width offset v d
  | statusWrite width offset v => cases h
  | memRead a =>
    cases h
    exact .memRead a
  | memWrite a v =>
    cases h
    exact .memWrite a v

/-- What one step can do: a turn of the sequencer, waiting, or the next interaction. -/
inductive StepEffect (s : State) : State → Prop where
  | turn (bc : BlockCore) (running : Bool) (hrun : s.seqRunning = true) (hupc : running = true → bc.upc.toNat ≤ 82) :
    StepEffect s { s with bc := bc, seqRunning := running }
  | wait : StepEffect s s
  | host (act : HostAct) (rest : List HostAct) (t : State) (hrun : s.seqRunning = false)
    (hhost : s.host = act :: rest) (h : HostEffect { s with host := rest } act t) : StepEffect s t

theorem stepEffect_of_step {s t : State} (h : step s = .next t) : StepEffect s t := by
  cases hrun : s.seqRunning with
  | true =>
    by_cases hupc : s.bc.upc.toNat ≤ 82
    case pos =>
      cases (step_eq_seqTurn hrun hupc).symm.trans h
      refine .turn _ _ hrun fun hrunning => ?_
      rw [decide_eq_true_iff] at hrunning
      rw [seqTurn_upc hupc]
      omega
    case neg =>
      have hnone : rom[s.bc.upc.toNat]? = none := by
        rw [List.getElem?_eq_none_iff, rom_length]
        omega
      rw [step, if_pos hrun, microTurn, hnone] at h
      cases h
  | false =>
    cases hhost : s.host with
    | nil =>
      cases (step_idle s hrun hhost).symm.trans h
      exact .wait
    | cons act rest =>
      rw [step_host s act rest hrun hhost] at h
      exact .host act rest t hrun hhost (hostEffect_of_hostStep h)

/-! ### The invariant (section 2 of spec/10_state.md) -/

/-- Settles O53. -/
theorem invariantAtReset : Obligations.InvariantAtReset :=
  ⟨fun h => absurd rfl h, fun _ => rfl, ⟨fun _ => rfl, fun _ => rfl⟩, rfl, nofun⟩

theorem processRun_mem_wf {s : State} {src dst len : Nat} (hwf : s.mem.wf = true)
    (hrange : RangesInMemory src dst len) : (processRun src dst len s).mem.wf = true := by
  rw [processRun_mem]
  obtain rfl | ⟨-, hdst⟩ := hrange
  · have hnone : processBytes s 0 = [] := List.eq_nil_of_length_eq_zero (processBytes_length s 0)
    rw [hnone]
    exact hwf
  · exact xorRun_wf _ _ _ _ (by rwa [processBytes_length]) hwf

/-- A command is issued with the sequencer at rest, so its effect on upc does not matter. -/
theorem inv_of_commandEffect {D : BitVec 128} {s t : State} (hinv : s.Inv) (hrun : s.seqRunning = false)
    (h : CommandEffect D s t) : t.Inv := by
  obtain ⟨hbuf, huninit, hflag, hwf, hupc⟩ := hinv
  cases h with
  | dropped => exact ⟨hbuf, huninit, hflag, hwf, hupc⟩
  | faulted c hcause =>
    exact ⟨hbuf, huninit, ⟨nofun, fun hnone => absurd hnone hcause⟩, hwf, hupc⟩
  | init keyptr ncptr hdec =>
    exact ⟨fun hne => absurd rfl hne, nofun, hflag, hwf, hupc⟩
  | process src dst len hdec hready =>
    obtain ⟨-, -, hrange, -, -⟩ := hready
    refine ⟨processRun_bufferCurrent src dst len hbuf, fun hphase => ?_, ?_, processRun_mem_wf hwf hrange,
      fun hrunning => ?_⟩
    · rw [processRun_phase] at hphase
      cases hphase
    · rw [processRun_fault, processRun_cause]
      exact hflag
    · rw [processRun_frame] at hrunning
      cases hrun.symm.trans hrunning

theorem inv_of_hostEffect {act : HostAct} {s t : State} (hinv : s.Inv) (hrun : s.seqRunning = false)
    (h : HostEffect s act t) : t.Inv := by
  obtain ⟨hbuf, huninit, hflag, hwf, hupc⟩ := id hinv
  cases h with
  | reset => exact ⟨fun hne => absurd rfl hne, fun _ => rfl, ⟨fun _ => rfl, fun _ => rfl⟩, hwf, fun hrunning => by
      cases hrun.symm.trans hrunning⟩
  | issue h => exact inv_of_commandEffect hinv hrun h
  | statusRead width offset v d => exact ⟨hbuf, huninit, hflag, hwf, hupc⟩
  | memRead a => exact ⟨hbuf, huninit, hflag, hwf, hupc⟩
  | memWrite a v => exact ⟨hbuf, huninit, hflag, Memory.wf_write _ _ _ a.isLt hwf, hupc⟩

/-- Settles O54: by what a step can do. -/
theorem stepKeepsInvariant : Obligations.StepKeepsInvariant := by
  intro s t hinv hstep
  cases stepEffect_of_step hstep with
  | turn bc running hrun hupc =>
    obtain ⟨hbuf, huninit, hflag, hwf, -⟩ := hinv
    exact ⟨hbuf, huninit, hflag, hwf, hupc⟩
  | wait => exact hinv
  | host act rest t hrun hhost h => exact inv_of_hostEffect (s := { s with host := rest }) hinv hrun h

/-- Settles O55: a running sequencer is at a ROM entry, a command always answers, and the status port answers on its
five words. -/
theorem stepAlwaysAnswers : Obligations.StepAlwaysAnswers := by
  intro s hinv
  obtain ⟨-, -, -, -, hupc⟩ := hinv
  cases hrun : s.seqRunning with
  | true => exact .inl ⟨_, step_eq_seqTurn hrun (hupc hrun)⟩
  | false =>
    cases hhost : s.host with
    | nil => exact .inl ⟨_, step_idle s hrun hhost⟩
    | cons act rest =>
      have hstep := step_host s act rest hrun hhost
      cases act with
      | reset => exact .inl ⟨_, hstep⟩
      | issue D =>
        obtain ⟨t, hnext, -⟩ := issueCommand_effect D { s with host := rest }
        exact .inl ⟨t, hstep.trans hnext⟩
      | statusRead width offset =>
        obtain ⟨hstatus, hcounter, hreserved, -⟩ := statusPortAccesses s rest hrun
        by_cases hbad : width ≠ .word ∨ offset ∉ [0x00, 0x04, 0x08, 0x0C, 0x10]
        case pos => exact .inr ⟨hreserved width offset hbad hhost, rfl, rest, .inl ⟨width, offset, hbad, rfl⟩⟩
        case neg =>
          obtain ⟨rfl, hoffset⟩ : width = .word ∧ offset ∈ [0x00, 0x04, 0x08, 0x0C, 0x10] := by
            simpa only [not_or, not_not] using hbad
          obtain rfl | hoffset := List.mem_cons.1 hoffset
          · exact .inl ⟨_, hstatus hhost⟩
          · obtain ⟨v, d, hnext⟩ := hcounter offset hoffset hhost
            exact .inl ⟨_, hnext⟩
      | statusWrite width offset v =>
        exact .inr ⟨hstep, rfl, rest, .inr ⟨width, offset, v, rfl⟩⟩
      | memRead a => exact .inl ⟨_, hstep⟩
      | memWrite a v => exact .inl ⟨_, hstep⟩

/-! ### Who writes the key and who writes memory -/

/-- Settles O56: only the reset event and INIT write K and the nonce words. -/
theorem keyWrittenByInitOnly : Obligations.KeyWrittenByInitOnly := by
  intro s t hstep
  cases stepEffect_of_step hstep with
  | turn bc running hrun hupc => exact .inl ⟨rfl, rfl, rfl⟩
  | wait => exact .inl ⟨rfl, rfl, rfl⟩
  | host act rest t hrun hhost h =>
    cases h with
    | reset => exact .inr ⟨hrun, rest, .inl hhost⟩
    | @issue D _ h =>
      cases h with
      | dropped => exact .inl ⟨rfl, rfl, rfl⟩
      | faulted c hcause => exact .inl ⟨rfl, rfl, rfl⟩
      | init keyptr ncptr hdec => exact .inr ⟨hrun, rest, .inr ⟨D, keyptr, ncptr, hhost, hdec⟩⟩
      | process src dst len hdec hready =>
        exact .inl ⟨processRun_k .., processRun_cn_2 .., processRun_cn_3 ..⟩
    | statusRead width offset v d => exact .inl ⟨rfl, rfl, rfl⟩
    | memRead a => exact .inl ⟨rfl, rfl, rfl⟩
    | memWrite a v => exact .inl ⟨rfl, rfl, rfl⟩

/-- Settles O57: only a host write and PROCESS touch memory, PROCESS by its byte run. -/
theorem memoryWriters : Obligations.MemoryWriters := by
  intro s t hstep
  cases stepEffect_of_step hstep with
  | turn bc running hrun hupc => exact .inl rfl
  | wait => exact .inl rfl
  | host act rest t hrun hhost h =>
    cases h with
    | reset => exact .inl rfl
    | @issue D _ h =>
      cases h with
      | dropped => exact .inl rfl
      | faulted c hcause => exact .inl rfl
      | init keyptr ncptr hdec => exact .inl rfl
      | process src dst len hdec hready =>
        exact .inr ⟨hrun, rest, .inr ⟨D, src, dst, len, hhost, hdec, fun a => processRun_read_outside⟩⟩
    | statusRead width offset v d => exact .inl rfl
    | memRead a => exact .inl rfl
    | memWrite a v => exact .inr ⟨hrun, rest, .inl ⟨a, v, hhost⟩⟩

end Sys2Proof.Machine
end
